-- ==== Sys2Proof/Config.lean ====
section
/-! DEFINITION. What one build of BFX fixes (00_scope.md R5 to R10), and the values the spec leaves open. -/

namespace Sys2Proof

/-- An order of a run of neighbouring places, for the two open orders of 00_scope.md R10.
`Machine/Ops.lean` reads it. -/
inductive PlaceOrder where
  /-- Lowest place first. -/
  | ascending
  /-- Highest place first. -/
  | descending
  /-- Any other order: a run whose places are exactly those of a list takes the order of that list, the first
  that fits; a run that no list fits ascends (log 9). -/
  | listed (orders : List (List Nat))
deriving DecidableEq, Repr

/-- The build-time parameters of one BFX block, with the conditions every block must satisfy
(00_scope.md R5, R6, R8, R9), and the two open orders (R10). They are a field of `State` that no step changes, so every statement
about all states is a statement about every legal build (log 1). -/
structure Params where
  /-- LIMB_COUNT (R5). -/
  N : Nat
  /-- LIMB_WIDTH (R6). -/
  L : Nat
  /-- Width of `VAL` and `RES` (R8). -/
  DW : Nat
  /-- Width of `START`, `WIDTH` and `IDX` (R9). -/
  PW : Nat
  /-- Width of `TW` (R9). -/
  TWB : Nat
  /-- The order in which a SET writes the limbs of its range (R10; 20_memory.md R41). -/
  LIMB_WRITE_ORDER : PlaceOrder := .ascending
  /-- The order of a limb's bytes in the host's memory, the lowest address first, byte 0 the least significant
  (R10; 20_memory.md R33). No step reads it. The spec gives it no default; the one here is log 17. -/
  HOST_BYTE_ORDER : PlaceOrder := .ascending
  N_pos : 1 ≤ N := by decide
  L_pos : 1 ≤ L := by decide
  L_le_DW : L ≤ DW := by decide
  N_fits : N ≤ 2 ^ DW - 1 := by decide
  T_fits : N * L ≤ 2 ^ PW - 1 := by decide
  DW_fits : DW ≤ 2 ^ TWB - 1 := by decide
deriving DecidableEq, Repr

/-- The total storage width in bits (00_scope.md R7). -/
def Params.T (p : Params) : Nat := p.N * p.L

namespace Config

/-- The build that `State.reset` is of: two limbs of 8 bits, configuration B of 95_test_vectors.md.
DESIGN CHOICE (log 2): the spec fixes no build; unsafe for a claim about runs from `State.reset` only. -/
abbrev reference : Params := { N := 2, L := 8, DW := 32, PW := 5, TWB := 6 }

/-- What a limb that the storage does not list reads as.
DESIGN CHOICE (log 3): the contents at the start of a run are the host's (70_reset_and_hazards.md R102). -/
def unlistedLimb (L : Nat) : BitVec L := 0#L

/-- A free value (log 12): whether, in the `n`-th command that a reset cut off, the new value of limb `i`
had already been written. 70_reset_and_hazards.md R101 leaves each limb "either its old or its new value". -/
opaque tornLimb : (n i : Nat) → Bool

end Config

end Sys2Proof
end

