-- ==== Sys2Proof/Word.lean ====
section
/-! DEFINITION. The words of BFX: the command byte, and a storage-shaped value that carries its own shape. -/

namespace Sys2Proof

/-- The command byte `CMD` (30_encoding.md R49). -/
abbrev Byte := BitVec 8

/-- A storage-shaped value with the shape it was given in: the operand `B` (10_state.md R20).
Its shape is (number of limbs, `limbWidth`); limb 0 is the head of the list. A `B` of a shape other
than `(N, L)` can be written down, so that the SHAPE fault can be raised (log 13). -/
structure StorageValue where
  limbWidth : Nat
  limbs : List (BitVec limbWidth)
deriving DecidableEq, Repr

/-- The shape of a storage-shaped value: limb count and limb width. -/
def StorageValue.shape (B : StorageValue) : Nat × Nat := (B.limbs.length, B.limbWidth)

/-- The unsigned value of limb `i`, 0 past the last limb. -/
def StorageValue.limbNat (B : StorageValue) (i : Nat) : Nat := (B.limbs.map BitVec.toNat).getD i 0

end Sys2Proof
end

