-- ==== Sys2Proof/Syntax.lean ====
section
/-! DEFINITION. The 15 commands of BFX-1, one constructor per row of the opcode map (30_encoding.md R53),
each with the operand fields its format names (R51). The operand fields are read as unsigned numbers (R50). -/

namespace Sys2Proof

/-- One BFX-1 command. -/
inductive Instr where
  /-- LCOUNT (40_storage.md R58) -/
  | lcount
  /-- LWIDTH (R59) -/
  | lwidth
  /-- GETL idx (R60) -/
  | getl (idx : Nat)
  /-- SETL idx, val (R61) -/
  | setl (idx val : Nat)
  /-- GET.U start, width, tw (41_bitrange.md R67) -/
  | getU (start width tw : Nat)
  /-- GET.S start, width, tw (R68) -/
  | getS (start width tw : Nat)
  /-- SET.U start, width, tw, val (R70) -/
  | setU (start width tw val : Nat)
  /-- SET.S start, width, tw, val (R71) -/
  | setS (start width tw val : Nat)
  /-- MASK start, width (R72) -/
  | mask (start width : Nat)
  /-- AND B (42_bitwise.md R80) -/
  | andB (B : StorageValue)
  /-- OR B (R81) -/
  | orB (B : StorageValue)
  /-- XOR B (R82) -/
  | xorB (B : StorageValue)
  /-- NOT (R83) -/
  | notS
  /-- NEWV val (40_storage.md R62) -/
  | newv (val : Nat)
  /-- NEWL B (R63) -/
  | newl (B : StorageValue)
deriving DecidableEq, Repr

end Sys2Proof
end

