-- ==== Sys2Proof/WellFormed.lean ====
section
/-! DEFINITION. Which commands the operand ports of a block can carry: each field within its port's width
(10_state.md R19, 30_encoding.md R50). A legal value of a field is another matter: an illegal one faults. -/

namespace Sys2Proof

/-- A value for `START`, `WIDTH` or `IDX`: `PW` bits. -/
def Params.fitsPW (p : Params) (n : Nat) : Bool := decide (n < 2 ^ p.PW)

/-- A value for `TW`: `TWB` bits. -/
def Params.fitsTWB (p : Params) (n : Nat) : Bool := decide (n < 2 ^ p.TWB)

/-- A value for `VAL`: `DW` bits. -/
def Params.fitsDW (p : Params) (n : Nat) : Bool := decide (n < 2 ^ p.DW)

/-- Every operand field of the command fits its port. `B` carries its own shape, so every `B` is
well formed; one of the wrong shape raises SHAPE (10_state.md R20). -/
def Instr.WellFormed (p : Params) : Instr → Bool
  | .lcount => true
  | .lwidth => true
  | .getl idx => p.fitsPW idx
  | .setl idx val => p.fitsPW idx && p.fitsDW val
  | .getU start width tw => p.fitsPW start && p.fitsPW width && p.fitsTWB tw
  | .getS start width tw => p.fitsPW start && p.fitsPW width && p.fitsTWB tw
  | .setU start width tw val => p.fitsPW start && p.fitsPW width && p.fitsTWB tw && p.fitsDW val
  | .setS start width tw val => p.fitsPW start && p.fitsPW width && p.fitsTWB tw && p.fitsDW val
  | .mask start width => p.fitsPW start && p.fitsPW width
  | .andB _ => true
  | .orB _ => true
  | .xorB _ => true
  | .notS => true
  | .newv val => p.fitsDW val
  | .newl _ => true

end Sys2Proof
end

