-- ==== Sys2Proof/Decode.lean ====
section
/-! DEFINITION. From a command on the command port to an instruction and back (30_encoding.md).
`decode` is total on all 256 command bytes (R54) and rejects by name; `encode` writes the command. -/

namespace Sys2Proof

/-- One command as it stands on the command port at acceptance: the command byte and EVERY operand field,
each of its port's width (10_state.md R19, R28). -/
structure Command (p : Params) where
  CMD : Byte
  START : BitVec p.PW
  WIDTH : BitVec p.PW
  TW : BitVec p.TWB
  VAL : BitVec p.DW
  IDX : BitVec p.PW
  B : StorageValue
deriving DecidableEq, Repr

/-- The 15 operations of the opcode map (R53). -/
inductive Opcode where
  | lcount | lwidth | getl | setl | getU | getS | setU | setS
  | mask | andB | orB | xorB | notS | newv | newl
deriving DecidableEq, Repr

/-- The operand fields of a command (R50). -/
inductive OperandField where
  | START | WIDTH | TW | VAL | IDX | B
deriving DecidableEq, Repr

/-- The eight formats (R51). -/
inductive Format where
  | FN | FI | FIV | FV | FB | FR | FRV | FM
deriving DecidableEq, Repr

/-- Why a command byte is illegal (R54), in the order of the checks. -/
inductive IllegalByte where
  /-- `CMD[7:5]` is not 000. -/
  | reservedBits
  /-- `CMD[3:0]` is 0xD, 0xE or 0xF. -/
  | unassignedOpcode
  /-- `CMD[4]` is 1 and the operation is neither GET nor SET. -/
  | signednessNotAllowed
deriving DecidableEq, Repr

/-- `CMD[3:0]` (R49). -/
def opcField (cmd : Byte) : BitVec 4 := cmd.extractLsb' 0 4

/-- `CMD[4]` (R49). -/
def sgField (cmd : Byte) : Bool := cmd.getLsbD 4

/-- `CMD[7:5]` (R49). -/
def rsvField (cmd : Byte) : BitVec 3 := cmd.extractLsb' 5 3

/-- An operation that has no signed form: `SG` must be 0 (R49, R54). -/
def unsignedOnly (sg : Bool) (o : Opcode) : Except IllegalByte Opcode :=
  if sg then .error .signednessNotAllowed else .ok o

/-- Decoding of the command byte, total on all 256 bytes (R54). -/
def decodeByte (cmd : Byte) : Except IllegalByte Opcode :=
  if rsvField cmd ≠ 0#3 then .error .reservedBits
  else
    match (opcField cmd).toNat with
    | 0x0 => unsignedOnly (sgField cmd) .lcount
    | 0x1 => unsignedOnly (sgField cmd) .lwidth
    | 0x2 => unsignedOnly (sgField cmd) .getl
    | 0x3 => unsignedOnly (sgField cmd) .setl
    | 0x4 => .ok (if sgField cmd then .getS else .getU)
    | 0x5 => .ok (if sgField cmd then .setS else .setU)
    | 0x6 => unsignedOnly (sgField cmd) .mask
    | 0x7 => unsignedOnly (sgField cmd) .andB
    | 0x8 => unsignedOnly (sgField cmd) .orB
    | 0x9 => unsignedOnly (sgField cmd) .xorB
    | 0xA => unsignedOnly (sgField cmd) .notS
    | 0xB => unsignedOnly (sgField cmd) .newv
    | 0xC => unsignedOnly (sgField cmd) .newl
    | _ => .error .unassignedOpcode

/-- The format of each operation (R51, R53). -/
def Opcode.format : Opcode → Format
  | .lcount | .lwidth | .notS => .FN
  | .getl => .FI
  | .setl => .FIV
  | .newv => .FV
  | .newl | .andB | .orB | .xorB => .FB
  | .getU | .getS => .FR
  | .setU | .setS => .FRV
  | .mask => .FM

/-- The operand fields a format names (R51); the others are ignored (R48). -/
def Format.fields : Format → List OperandField
  | .FN => []
  | .FI => [.IDX]
  | .FIV => [.IDX, .VAL]
  | .FV => [.VAL]
  | .FB => [.B]
  | .FR => [.START, .WIDTH, .TW]
  | .FRV => [.START, .WIDTH, .TW, .VAL]
  | .FM => [.START, .WIDTH]

/-- The instruction of an operation with the operand fields of a command, all read as unsigned (R50). -/
def assemble {p : Params} (c : Command p) : Opcode → Instr
  | .lcount => .lcount
  | .lwidth => .lwidth
  | .getl => .getl c.IDX.toNat
  | .setl => .setl c.IDX.toNat c.VAL.toNat
  | .getU => .getU c.START.toNat c.WIDTH.toNat c.TW.toNat
  | .getS => .getS c.START.toNat c.WIDTH.toNat c.TW.toNat
  | .setU => .setU c.START.toNat c.WIDTH.toNat c.TW.toNat c.VAL.toNat
  | .setS => .setS c.START.toNat c.WIDTH.toNat c.TW.toNat c.VAL.toNat
  | .mask => .mask c.START.toNat c.WIDTH.toNat
  | .andB => .andB c.B
  | .orB => .orB c.B
  | .xorB => .xorB c.B
  | .notS => .notS
  | .newv => .newv c.VAL.toNat
  | .newl => .newl c.B

/-- The instruction a command stands for, or why its byte is illegal (R54). An illegal byte reads no
operand field. -/
def decode {p : Params} (c : Command p) : Except IllegalByte Instr :=
  match decodeByte c.CMD with
  | .ok o => .ok (assemble c o)
  | .error e => .error e

/-- The operation of an instruction. -/
def Instr.opcode : Instr → Opcode
  | .lcount => .lcount
  | .lwidth => .lwidth
  | .getl _ => .getl
  | .setl _ _ => .setl
  | .getU _ _ _ => .getU
  | .getS _ _ _ => .getS
  | .setU _ _ _ _ => .setU
  | .setS _ _ _ _ => .setS
  | .mask _ _ => .mask
  | .andB _ => .andB
  | .orB _ => .orB
  | .xorB _ => .xorB
  | .notS => .notS
  | .newv _ => .newv
  | .newl _ => .newl

/-- The command byte of each operation: the column `CMD` of the opcode map (R53). -/
def Opcode.byte : Opcode → Byte
  | .lcount => 0x00
  | .lwidth => 0x01
  | .getl => 0x02
  | .setl => 0x03
  | .getU => 0x04
  | .getS => 0x14
  | .setU => 0x05
  | .setS => 0x15
  | .mask => 0x06
  | .andB => 0x07
  | .orB => 0x08
  | .xorB => 0x09
  | .notS => 0x0A
  | .newv => 0x0B
  | .newl => 0x0C

/-- `N` limbs of `L` zero bits: the port `B` with every bit 0. -/
def StorageValue.zeros (p : Params) : StorageValue := ⟨p.L, List.replicate p.N 0#p.L⟩

/-- The command with command byte `cmd` and every operand field 0. -/
def Command.ofByte (p : Params) (cmd : Byte) : Command p :=
  { CMD := cmd, START := 0#p.PW, WIDTH := 0#p.PW, TW := 0#p.TWB, VAL := 0#p.DW, IDX := 0#p.PW
    B := StorageValue.zeros p }

/-- The command of an instruction: its command byte and the operand fields its format names;
the fields it does not name are 0 (they are ignored, R48). -/
def encode (p : Params) (i : Instr) : Command p :=
  let c := Command.ofByte p i.opcode.byte
  match i with
  | .lcount => c
  | .lwidth => c
  | .getl idx => { c with IDX := BitVec.ofNat p.PW idx }
  | .setl idx val => { c with IDX := BitVec.ofNat p.PW idx, VAL := BitVec.ofNat p.DW val }
  | .getU start width tw =>
    { c with START := BitVec.ofNat p.PW start, WIDTH := BitVec.ofNat p.PW width, TW := BitVec.ofNat p.TWB tw }
  | .getS start width tw =>
    { c with START := BitVec.ofNat p.PW start, WIDTH := BitVec.ofNat p.PW width, TW := BitVec.ofNat p.TWB tw }
  | .setU start width tw val =>
    { c with START := BitVec.ofNat p.PW start, WIDTH := BitVec.ofNat p.PW width, TW := BitVec.ofNat p.TWB tw
             VAL := BitVec.ofNat p.DW val }
  | .setS start width tw val =>
    { c with START := BitVec.ofNat p.PW start, WIDTH := BitVec.ofNat p.PW width, TW := BitVec.ofNat p.TWB tw
             VAL := BitVec.ofNat p.DW val }
  | .mask start width => { c with START := BitVec.ofNat p.PW start, WIDTH := BitVec.ofNat p.PW width }
  | .andB B => { c with B := B }
  | .orB B => { c with B := B }
  | .xorB B => { c with B := B }
  | .notS => c
  | .newv val => { c with VAL := BitVec.ofNat p.DW val }
  | .newl B => { c with B := B }

/-- The instruction the decoder reads from the command byte `w` of the opcode table with every operand
field 0 (log 19). A command is one command byte of 8 bits (R48, R55). -/
def decodeTableWord (nbits w : Nat) : Option Instr :=
  if nbits = 8 ∧ w < 256 then
    match decode (Command.ofByte Config.reference (BitVec.ofNat 8 w)) with
    | .ok i => some i
    | .error _ => none
  else none

end Sys2Proof
end

