-- ==== Sys2Proof/Machine/State.lean ====
section
/-! DEFINITION. The state of BFX as plain data (10_state.md R29), the two ways a step can stop, and reset. -/

namespace Sys2Proof.Machine

/-- The storage: a list of (limb index, limb), the address unit being one limb of `L` bits
(20_memory.md R30), in one canonical form: indexes strictly rising, no limb listed that equals
`Config.unlistedLimb` (log 4). `Machine/Ops.lean` reads and writes it. -/
abbrev Memory (L : Nat) := List (Nat × BitVec L)

/-- The fault codes (60_exceptions.md R87). -/
inductive FaultCode where
  | illegalCmd
  | targetWidth
  | zeroWidth
  | range
  | limbIndex
  | shape
deriving DecidableEq, Repr

/-- What fault entry records (60_exceptions.md R87, R92): the code, and the command byte. -/
structure FaultRecord where
  code : FaultCode
  cmd : Byte
deriving DecidableEq, Repr

/-- One access on the storage port, of one whole limb (20_memory.md R35): ST_RD with the limb read,
or ST_WR with the limb written (10_state.md R28). -/
inductive Access (L : Nat) where
  | read (idx : Nat) (data : BitVec L)
  | write (idx : Nat) (data : BitVec L)
deriving DecidableEq, Repr

/-- The block of one build `p`, with the storage it works on (10_state.md R29). -/
structure Block (p : Params) where
  /-- The storage `S` (R15). -/
  S : Memory p.L
  /-- The scalar result register, absent until a command writes it (R21). -/
  RES : Option (BitVec p.DW)
  /-- The storage-shaped result register, absent until a command writes it (R22). -/
  RES_S : Option (Vector (BitVec p.L) p.N)
  /-- The fault record: `STATUS` and `FCMD` are views of it (R29; Machine/Flags.lean). -/
  fault : Option FaultRecord
  /-- The port `DONE` (R28): the last accepted command has completed (log 7). -/
  DONE : Bool
  /-- What the last accepted command put on the storage port, in order (R28; log 9). -/
  accesses : List (Access p.L)
  /-- The command index (R26; log 8). -/
  k : Nat
deriving DecidableEq, Repr

/-- What the host can do between two steps of the block (log 10). -/
inductive HostMove (p : Params) where
  /-- Offer a command on the command port (10_state.md R28). -/
  | offer (c : Command p)
  /-- Offer a command, and assert RST after its acceptance and before its DONE (70_reset_and_hazards.md R101). -/
  | offerThenReset (c : Command p)
  /-- Assert RST (R101). -/
  | assertReset
  /-- Release RST (R101). -/
  | releaseReset
  /-- Write a limb of the host's own storage between commands (R104, R105; 10_state.md R17). -/
  | writeLimb (i : Fin p.N) (v : BitVec p.L)
deriving DecidableEq, Repr

/-- The machine: one block, its build, and the outside world that drives it. -/
structure State where
  /-- The build (00_scope.md R5 to R9); no step changes it (10_state.md R16). -/
  p : Params
  /-- The block and the storage. -/
  blk : Block p
  /-- The pin RST (10_state.md R28). -/
  RST : Bool
  /-- The host's coming moves, the next one first (log 10). -/
  host : List (HostMove p)
  /-- The model's own: how many commands a reset has cut off, the argument of `Config.tornLimb` (log 12). -/
  abandoned : Nat
deriving DecidableEq, Repr

/-- How a step stops. -/
inductive Fault where
  /-- The block is in the faulted state and no reset is coming: "the step from a faulted state does not
  exist" (60_exceptions.md R93). Raised by a meaning and by `step` when the fault record is set. The
  record itself was written by an earlier step, which was a NEXT state (R92; log 6). Safe. -/
  | faultedState (code : FaultCode) (cmd : Byte)
deriving DecidableEq, Repr

/-- Why a step has no meaning. -/
inductive Refusal where
  /-- An instruction that has no meaning yet; no arm of `exec` answers it now. Safe. -/
  | notModelled (mnemonic : String)
deriving DecidableEq, Repr

/-- The block right after reset over the storage `S`, which reset does not touch
(70_reset_and_hazards.md R101, R102): no fault, so `STATUS = 0x00` and `FCMD = 0x00`, no value in
`RES` and `RES_S`, `DONE = 0`. -/
def Block.reset {p : Params} (S : Memory p.L) : Block p :=
  { S := S, RES := none, RES_S := none, fault := none, DONE := false, accesses := [], k := 0 }

/-- The machine right after reset: RST released, the storage with no limb listed (log 3), and no move of
the host pending (log 10). -/
def State.reset : State :=
  { p := Config.reference, blk := Block.reset [], RST := false, host := [], abandoned := 0 }

end Sys2Proof.Machine
end

