-- ==== Sys2Proof/Machine/Flags.lean ====
section
/-! DEFINITION. The one flag of BFX and what the host reads of it (10_state.md R23, R24, R26, R28).
No command writes a flag; fault entry and reset do. -/

namespace Sys2Proof.Machine

/-- The number of a fault code, which is its priority too (60_exceptions.md R87, R89). -/
def FaultCode.num : FaultCode → Nat
  | .illegalCmd => 1
  | .targetWidth => 2
  | .zeroWidth => 3
  | .range => 4
  | .limbIndex => 5
  | .shape => 6

/-- `STATUS` of a fault record: `(code << 4) | 0b0001` (60_exceptions.md R92). -/
def statusWord (code : FaultCode) : Byte := (BitVec.ofNat 8 code.num <<< 4) ||| 0b0001#8

/-- The register `STATUS` (10_state.md R23, R29). -/
def Block.STATUS {p : Params} (b : Block p) : Byte :=
  match b.fault with
  | none => 0x00#8
  | some r => statusWord r.code

/-- The register `FCMD` (10_state.md R24, R29). -/
def Block.FCMD {p : Params} (b : Block p) : Byte :=
  match b.fault with
  | none => 0x00#8
  | some r => r.cmd

/-- `STATUS.FAULT`, bit 0 (R23). -/
def Block.FAULT {p : Params} (b : Block p) : Bool := b.STATUS.getLsbD 0

/-- `STATUS.FCODE`, bits 7:4 (R23). -/
def Block.FCODE {p : Params} (b : Block p) : BitVec 4 := b.STATUS.extractLsb' 4 4

/-- The port `CMD_READY` (R28): no command is in flight between two steps, so it is 1 when there is no
fault and RST is released (70_reset_and_hazards.md R101). -/
def State.CMD_READY (s : State) : Bool := !s.RST && s.blk.fault.isNone

end Sys2Proof.Machine
end

