-- ==== Sys2Proof/Machine/Ops.lean ====
section
/-! DEFINITION. The named operations over the storage, the storage port and the registers, taking a fault,
reset, and the template every command follows (00_scope.md R13, R14). -/

namespace Sys2Proof.Machine

/-! ### The storage as data -/

/-- The limb at index `i`. -/
def Memory.read {L : Nat} : Memory L → Nat → BitVec L
  | [], _ => Config.unlistedLimb L
  | (j, v) :: m, i => if j = i then v else Memory.read m i

/-- The storage without an entry for limb `i`. -/
def Memory.erase {L : Nat} : Memory L → Nat → Memory L
  | [], _ => []
  | (j, v) :: m, i => if j = i then Memory.erase m i else (j, v) :: Memory.erase m i

/-- The storage with an entry for limb `i` put in its place. -/
def Memory.insert {L : Nat} : Memory L → Nat → BitVec L → Memory L
  | [], i, v => [(i, v)]
  | (j, w) :: m, i, v => if i < j then (i, v) :: (j, w) :: m else (j, w) :: Memory.insert m i v

/-- The storage with limb `i` overwritten, all of it (20_memory.md R35), in canonical form again. -/
def Memory.write {L : Nat} (m : Memory L) (i : Nat) (v : BitVec L) : Memory L :=
  if v = Config.unlistedLimb L then m.erase i else (m.erase i).insert i v

/-- Indexes strictly rising from `lo` on and below `N`, no limb listed that equals an unlisted one. -/
def Memory.wfFrom {L : Nat} (N : Nat) : Nat → Memory L → Bool
  | _, [] => true
  | lo, (j, v) :: m =>
    decide (lo ≤ j) && decide (j < N) && decide (v ≠ Config.unlistedLimb L) && Memory.wfFrom N (j + 1) m

/-- The canonical form of a storage of `N` limbs (log 4). -/
def Memory.wf {L : Nat} (N : Nat) (m : Memory L) : Bool := Memory.wfFrom N 0 m

/-! ### The storage port -/

/-- `S[i]` (00_scope.md R13): what ST_RDATA carries for limb `i`. Reading has no side effect (20_memory.md R36). -/
def Block.limb {p : Params} (b : Block p) (i : Nat) : BitVec p.L := b.S.read i

/-- `MemRead(i, 1)`: one limb read on the storage port. -/
def Block.memRead {p : Params} (b : Block p) (i : Nat) : Block p :=
  { b with accesses := b.accesses ++ [.read i (b.limb i)] }

/-- `MemWrite(i, 1, v)`: one limb write on the storage port. -/
def Block.memWrite {p : Params} (b : Block p) (i : Nat) (v : BitVec p.L) : Block p :=
  { b with S := b.S.write i v, accesses := b.accesses ++ [.write i v] }

/-- The reads of the `n` limbs from `i` on, in ascending order. -/
def Block.memReads {p : Params} (b : Block p) (i : Nat) : Nat → Block p
  | 0 => b
  | n + 1 => Block.memReads (b.memRead i) (i + 1) n

/-- The writes of the limbs `is`, in the order of the list, limb `j` with `val j`. -/
def Block.memWrites {p : Params} (b : Block p) (val : Nat → BitVec p.L) : List Nat → Block p
  | [] => b
  | i :: is => Block.memWrites (b.memWrite i (val i)) val is

/-- The `n` places from `i` on, in the order of a build (00_scope.md R10; log 9). -/
def placesInOrder (o : PlaceOrder) (i n : Nat) : List Nat :=
  match o with
  | .ascending => List.range' i n
  | .descending => (List.range' i n).reverse
  | .listed orders => (orders.find? fun l => l.isPerm (List.range' i n)).getD (List.range' i n)

/-! ### The whole storage as one integer (00_scope.md R13) -/

/-- The sum of the first `n` limbs with their weights. -/
def Block.sintTo {p : Params} (b : Block p) : Nat → Nat
  | 0 => 0
  | n + 1 => b.sintTo n + (b.limb n).toNat * 2 ^ (n * p.L)

/-- `Sint`: the whole storage read as one unsigned integer. -/
def Block.sint {p : Params} (b : Block p) : Nat := b.sintTo p.N

/-- Bit `j` of the storage: bit `j mod L` of limb `j div L` (20_memory.md R30, R31). -/
def Block.bit {p : Params} (b : Block p) (j : Nat) : Bool := (b.limb (j / p.L)).getLsbD (j % p.L)

/-- Limb `i` as the host keeps it in bytes, lowest address first (20_memory.md R33): byte `j` holds bits `8j+7 .. 8j`
of the limb, the last one filled up with zeros where `L` is no multiple of 8 (log 17). No command reads it. -/
def Block.limbBytes {p : Params} (b : Block p) (i : Nat) : List Byte :=
  (placesInOrder p.HOST_BYTE_ORDER 0 ((p.L + 7) / 8)).map fun j => (b.limb i).extractLsb' (8 * j) 8

/-! ### The result registers -/

/-- `RES <- zext_DW(v)` (30_encoding.md R52). -/
def Block.writeRES {p : Params} {n : Nat} (b : Block p) (v : BitVec n) : Block p :=
  { b with RES := some (v.setWidth p.DW) }

/-- `RES_S[i] <- val i` for every limb `i` (30_encoding.md R52). -/
def Block.writeRES_S {p : Params} (b : Block p) (val : Nat → BitVec p.L) : Block p :=
  { b with RES_S := some (Vector.ofFn fun i : Fin p.N => val i) }

/-! ### Acceptance, completion, fault entry, reset -/

/-- Acceptance of a command (10_state.md R28): `DONE` falls, nothing has crossed the storage port yet. -/
def Block.accept {p : Params} (b : Block p) : Block p := { b with DONE := false, accesses := [] }

/-- Completion of a command: `DONE`, and the command index grows by 1 (10_state.md R26, R28). -/
def Block.complete {p : Params} (b : Block p) : Block p := { b with DONE := true, k := b.k + 1 }

/-- FAULT ENTRY (60_exceptions.md R92): the code goes to `STATUS`, the command byte to `FCMD`, `DONE` is
signalled; nothing else is saved and no limb, `RES` or `RES_S` changes (R91). The command has completed,
with a fault (70_reset_and_hazards.md R108). -/
def Block.takeFault {p : Params} (b : Block p) (code : FaultCode) (cmd : Byte) : Block p :=
  { b.accept with fault := some ⟨code, cmd⟩ }.complete

/-- Fault entry on the machine. -/
def State.takeFault (s : State) (code : FaultCode) (cmd : Byte) : State :=
  { s with blk := s.blk.takeFault code cmd }

/-- RST asserted (70_reset_and_hazards.md R101): the one way out of the faulted state (60_exceptions.md R94).
The storage is not written (R102). -/
def State.assertReset (s : State) : State := { s with blk := Block.reset s.blk.S, RST := true }

/-- RST released (R101): the block is ready for the first command (R103). -/
def State.releaseReset (s : State) : State := { s with RST := false }

/-- THE TEMPLATE OF A COMMAND (00_scope.md R14): it is accepted only while `CMD_READY = 1`
(60_exceptions.md R93, 10_state.md R28); then come the checks, and only if none fails the reads and
writes of `body`, and completion. In the faulted state no step exists (R93); while RST is asserted a
command is not accepted and nothing changes (70_reset_and_hazards.md R101). -/
def State.command (s : State) (op : Opcode) (check : Option FaultCode) (body : Block s.p → Block s.p) :
    Host.Outcome State Fault Refusal :=
  match s.blk.fault with
  | some r => .fault (.faultedState r.code r.cmd)
  | none =>
    if s.RST then .next s
    else
      match check with
      | some code => .next (s.takeFault code op.byte)
      | none => .next { s with blk := (body s.blk.accept).complete }

end Sys2Proof.Machine
end

