-- ==== Sys2Proof/Machine/Operands.lean ====
section
/-! DEFINITION. How operand fields become values: masks (00_scope.md R12), the range decomposition
(41_bitrange.md R64), the field extracted (R65) and inserted (R69), the values of `VAL` and `TW`
(30_encoding.md R52), the operand `B` (10_state.md R20), and the checks of each format (60_exceptions.md R87 to R90). -/

namespace Sys2Proof.Machine

/-! ### Masks (00_scope.md R12) -/

/-- `ones(w) = 2^w - 1`. -/
def ones (w : Nat) : Nat := 2 ^ w - 1

/-- `fieldmask(start, width)`: ones exactly at bits `start .. start+width-1`. -/
def fieldmask (start width : Nat) : Nat := ones width <<< start

/-! ### Range decomposition (41_bitrange.md R64); `s` and `w` are the range's start and width -/

/-- `first_limb f`. -/
def firstLimb (p : Params) (s : Nat) : Nat := s / p.L

/-- `last_limb l`. -/
def lastLimb (p : Params) (s w : Nat) : Nat := (s + w - 1) / p.L

/-- How many limbs the range touches: `l - f + 1`. -/
def limbSpan (p : Params) (s w : Nat) : Nat := lastLimb p s w - firstLimb p s + 1

/-- `lo_i`: the lowest bit of limb `i` inside the range. -/
def loBit (p : Params) (s i : Nat) : Nat := max s (i * p.L) - i * p.L

/-- `hi_i`: the highest bit of limb `i` inside the range. -/
def hiBit (p : Params) (s w i : Nat) : Nat := min (s + w) ((i + 1) * p.L) - 1 - i * p.L

/-- `local_mask_i`: ones at the bits of limb `i` inside the range. -/
def localMask (p : Params) (s w i : Nat) : BitVec p.L :=
  BitVec.ofNat p.L (ones (hiBit p s w i - loBit p s i + 1) <<< loBit p s i)

/-- `off_i`: where limb `i`'s bits land in the field value. -/
def offBit (p : Params) (s i : Nat) : Nat := i * p.L + loBit p s i - s

/-! ### Extraction (R65) and insertion (R69) -/

/-- Limb `i`'s contribution to the accumulator of R65. -/
def fieldPart {p : Params} (b : Block p) (s w i : Nat) : Nat :=
  (((b.limb i).toNat &&& (localMask p s w i).toNat) >>> loBit p s i) <<< offBit p s i

/-- The accumulator of R65 after the first `n` limbs of the range. -/
def accumulate {p : Params} (b : Block p) (s w : Nat) : Nat → Nat
  | 0 => 0
  | n + 1 => accumulate b s w n ||| fieldPart b s w (firstLimb p s + n)

/-- `Extract(S, s, w)`, limb by limb over the limbs the range covers (R65). -/
def extract {p : Params} (b : Block p) (s w : Nat) : BitVec w :=
  BitVec.ofNat w (accumulate b s w (limbSpan p s w))

/-- The new value of limb `i` when the field takes the value `x` (R69; 20_memory.md R38). -/
def insertedLimb {p : Params} (b : Block p) (s w : Nat) (x : BitVec w) (i : Nat) : BitVec p.L :=
  (b.limb i &&& ~~~localMask p s w i) ||| (BitVec.ofNat p.L ((x.toNat <<< s) >>> (i * p.L)) &&& localMask p s w i)

/-- The reads of the limbs a range covers (20_memory.md R37). -/
def Block.readField {p : Params} (b : Block p) (s w : Nat) : Block p :=
  b.memReads (firstLimb p s) (limbSpan p s w)

/-- The limbs a range covers in the order in which a SET writes them (R69; 20_memory.md R41). -/
def writeOrder (p : Params) (s w : Nat) : List Nat := placesInOrder p.LIMB_WRITE_ORDER (firstLimb p s) (limbSpan p s w)

/-- `Insert(S, s, w, x)`: every limb of the range is read, then every limb of the range is written once,
and no other limb, in the order of the build (R69; 20_memory.md R37 to R39, R41). -/
def Block.writeField {p : Params} (b : Block p) (s w : Nat) (x : BitVec w) : Block p :=
  (b.readField s w).memWrites (insertedLimb b s w x) (writeOrder p s w)

/-! ### Values of `VAL` and of the target width (30_encoding.md R52) -/

/-- `VAL`, the `DW` bits of the port. -/
def valWord (p : Params) (val : Nat) : BitVec p.DW := BitVec.ofNat p.DW val

/-- `v = VAL[TW-1:0]`. -/
def valSlice (p : Params) (val tw : Nat) : BitVec tw := (valWord p val).setWidth tw

/-- `VAL[L-1:0]`: higher bits are dropped without a fault. -/
def valLimb (p : Params) (val : Nat) : BitVec p.L := (valWord p val).setWidth p.L

/-- An unsigned reading brought to another width: `bv_m(nat(v))`. -/
def resizeU {n : Nat} (m : Nat) (v : BitVec n) : BitVec m := BitVec.ofNat m v.toNat

/-- A signed reading brought to another width: `bv_m(int(v))`. -/
def resizeS {n : Nat} (m : Nat) (v : BitVec n) : BitVec m := BitVec.ofInt m v.toInt

/-- Limb `i` of an integer: `bv_L(x >> (i*L))` (00_scope.md R13). -/
def limbOfInt (p : Params) (x i : Nat) : BitVec p.L := BitVec.ofNat p.L (x >>> (i * p.L))

/-! ### The operand `B` (10_state.md R20) -/

/-- `B[i]`, for a `B` of the right shape. -/
def limbOfB (p : Params) (B : StorageValue) (i : Nat) : BitVec p.L := BitVec.ofNat p.L (B.limbNat i)

/-! ### The checks (60_exceptions.md R87), each of the fields one format names (R88), in the order of R89 -/

/-- ZERO_WIDTH, then RANGE; the sum is exact (R90). -/
def checkRange (p : Params) (start width : Nat) : Option FaultCode :=
  if width = 0 then some .zeroWidth
  else if start + width > p.T then some .range
  else none

/-- TARGET_WIDTH, then the range. -/
def checkField (p : Params) (start width tw : Nat) : Option FaultCode :=
  if tw = 0 ∨ tw > p.DW then some .targetWidth else checkRange p start width

/-- LIMB_INDEX. -/
def checkIndex (p : Params) (idx : Nat) : Option FaultCode :=
  if idx ≥ p.N then some .limbIndex else none

/-- SHAPE. -/
def checkShape (p : Params) (B : StorageValue) : Option FaultCode :=
  if B.shape ≠ (p.N, p.L) then some .shape else none

end Sys2Proof.Machine
end

