-- ==== Sys2Proof/Machine/BitRange.lean ====
section
/-! DEFINITION. Bit-range engine commands (41_bitrange.md R67 to R72). -/

namespace Sys2Proof.Machine

/-- GET.U (R67): `r = bv_tw(nat(x))`, `RES <- zext_DW(r)`. -/
def execGetU (start width tw : Nat) (s : State) : Host.Outcome State Fault Refusal :=
  s.command .getU (checkField s.p start width tw) fun b =>
    (b.readField start width).writeRES (resizeU tw (extract b start width))

/-- GET.S (R68): `r = bv_tw(int(x))`, `RES <- zext_DW(r)`. -/
def execGetS (start width tw : Nat) (s : State) : Host.Outcome State Fault Refusal :=
  s.command .getS (checkField s.p start width tw) fun b =>
    (b.readField start width).writeRES (resizeS tw (extract b start width))

/-- SET.U (R70): `x = bv_w(nat(v))`, `Insert(S, s, w, x)`. -/
def execSetU (start width tw val : Nat) (s : State) : Host.Outcome State Fault Refusal :=
  s.command .setU (checkField s.p start width tw) fun b =>
    b.writeField start width (resizeU width (valSlice s.p val tw))

/-- SET.S (R71): `x = bv_w(int(v))`, `Insert(S, s, w, x)`. -/
def execSetS (start width tw val : Nat) (s : State) : Host.Outcome State Fault Refusal :=
  s.command .setS (checkField s.p start width tw) fun b =>
    b.writeField start width (resizeS width (valSlice s.p val tw))

/-- MASK (R72): `RES_S[i] <- bv_L(fieldmask(s, w) >> (i*L))`; no limb of `S` is read or written. -/
def execMask (start width : Nat) (s : State) : Host.Outcome State Fault Refusal :=
  s.command .mask (checkRange s.p start width) fun b =>
    b.writeRES_S (limbOfInt s.p (fieldmask start width))

end Sys2Proof.Machine
end

