-- ==== Sys2Proof/Machine/Bitwise.lean ====
section
/-! DEFINITION. Whole-storage bitwise commands (42_bitwise.md R79 to R83): each reads every limb of `S`,
writes `RES_S` limb by limb, and leaves `S` unchanged. -/

namespace Sys2Proof.Machine

/-- AND (R80). -/
def execAnd (B : StorageValue) (s : State) : Host.Outcome State Fault Refusal :=
  s.command .andB (checkShape s.p B) fun b =>
    (b.memReads 0 s.p.N).writeRES_S fun i => b.limb i &&& limbOfB s.p B i

/-- OR (R81). -/
def execOr (B : StorageValue) (s : State) : Host.Outcome State Fault Refusal :=
  s.command .orB (checkShape s.p B) fun b =>
    (b.memReads 0 s.p.N).writeRES_S fun i => b.limb i ||| limbOfB s.p B i

/-- XOR (R82). -/
def execXor (B : StorageValue) (s : State) : Host.Outcome State Fault Refusal :=
  s.command .xorB (checkShape s.p B) fun b =>
    (b.memReads 0 s.p.N).writeRES_S fun i => b.limb i ^^^ limbOfB s.p B i

/-- NOT (R83): the complement within `L` bits. -/
def execNot (s : State) : Host.Outcome State Fault Refusal :=
  s.command .notS none fun b =>
    (b.memReads 0 s.p.N).writeRES_S fun i => ~~~b.limb i

end Sys2Proof.Machine
end

