-- ==== Sys2Proof/Machine/Storage.lean ====
section
/-! DEFINITION. Storage abstraction and construction commands (40_storage.md R58 to R63). -/

namespace Sys2Proof.Machine

/-- LCOUNT (R58): `RES <- zext_DW(bv_DW(N))`. -/
def execLcount (s : State) : Host.Outcome State Fault Refusal :=
  s.command .lcount none fun b => b.writeRES (BitVec.ofNat s.p.DW s.p.N)

/-- LWIDTH (R59): `RES <- zext_DW(bv_DW(L))`. -/
def execLwidth (s : State) : Host.Outcome State Fault Refusal :=
  s.command .lwidth none fun b => b.writeRES (BitVec.ofNat s.p.DW s.p.L)

/-- GETL (R60): `RES <- zext_DW(S[i])`. -/
def execGetl (idx : Nat) (s : State) : Host.Outcome State Fault Refusal :=
  s.command .getl (checkIndex s.p idx) fun b => (b.memRead idx).writeRES (b.limb idx)

/-- SETL (R61): `S[i] <- VAL[L-1:0]`. -/
def execSetl (idx val : Nat) (s : State) : Host.Outcome State Fault Refusal :=
  s.command .setl (checkIndex s.p idx) fun b => b.memWrite idx (valLimb s.p val)

/-- NEWV (R62): `S[i] <- bv_L(nat(VAL) >> (i*L))` for every limb. -/
def execNewv (val : Nat) (s : State) : Host.Outcome State Fault Refusal :=
  s.command .newv none fun b => b.memWrites (limbOfInt s.p (valWord s.p val).toNat) (List.range s.p.N)

/-- NEWL (R63): `S[i] <- B[i]` for every limb. -/
def execNewl (B : StorageValue) (s : State) : Host.Outcome State Fault Refusal :=
  s.command .newl (checkShape s.p B) fun b => b.memWrites (limbOfB s.p B) (List.range s.p.N)

end Sys2Proof.Machine
end

