-- ==== Sys2Proof/Machine/Dispatch.lean ====
section
/-! DEFINITION. The meaning of every instruction, one arm each. -/

namespace Sys2Proof.Machine

def exec (i : Instr) (s : State) : Host.Outcome State Fault Refusal :=
  match i with
  | .lcount => Sys2Proof.Machine.execLcount s
  | .lwidth => Sys2Proof.Machine.execLwidth s
  | .getl idx => Sys2Proof.Machine.execGetl idx s
  | .setl idx val => Sys2Proof.Machine.execSetl idx val s
  | .getU start width tw => Sys2Proof.Machine.execGetU start width tw s
  | .getS start width tw => Sys2Proof.Machine.execGetS start width tw s
  | .setU start width tw val => Sys2Proof.Machine.execSetU start width tw val s
  | .setS start width tw val => Sys2Proof.Machine.execSetS start width tw val s
  | .mask start width => Sys2Proof.Machine.execMask start width s
  | .andB B => Sys2Proof.Machine.execAnd B s
  | .orB B => Sys2Proof.Machine.execOr B s
  | .xorB B => Sys2Proof.Machine.execXor B s
  | .notS => Sys2Proof.Machine.execNot s
  | .newv val => Sys2Proof.Machine.execNewv val s
  | .newl B => Sys2Proof.Machine.execNewl B s

end Sys2Proof.Machine
end

