-- ==== Sys2Proof/Machine/CommandPort.lean ====
section
/-! DEFINITION. The moves of the outside world: a command offered, a command cut off by reset, a limb the
host writes itself (10_state.md R28; 70_reset_and_hazards.md R101, R105). `step` only chooses among them. -/

namespace Sys2Proof.Machine

/-- An accepted command runs: the decoded instruction, or fault entry ILLEGAL_CMD with the command byte
(30_encoding.md R54; 60_exceptions.md R87, R92). -/
def runCommand (s : State) (c : Command s.p) : Host.Outcome State Fault Refusal :=
  match decode c with
  | .ok i => exec i s
  | .error _ => .next (s.takeFault .illegalCmd c.CMD)

/-- The storage when a command was cut off (70_reset_and_hazards.md R101; log 12): each of the first `n`
limbs holds its old value or the value `val` gives it, as the free value says. -/
def tornStorage {L : Nat} (S : Memory L) (val : Nat → BitVec L) (cut : Nat) : Nat → Memory L
  | 0 => S
  | n + 1 =>
    if Config.tornLimb cut n then (tornStorage S val cut n).write n (val n) else tornStorage S val cut n

/-- A command accepted and then abandoned by reset before its DONE (R101): the limbs it would have written
hold their old or their new value, and the block is in reset. -/
def abandonCommand (s : State) (c : Command s.p) : State :=
  match runCommand s c with
  | .next t =>
    let S := tornStorage s.blk.S (fun j => BitVec.ofNat s.p.L (t.blk.limb j).toNat) s.abandoned s.p.N
    State.assertReset { s with blk := { s.blk with S := S }, abandoned := s.abandoned + 1 }
  | .fault _ => s.assertReset
  | .refused _ => s.assertReset

/-- The host writes a limb of its own storage, not through the block (R104, R105). -/
def hostWrite (s : State) (i : Fin s.p.N) (v : BitVec s.p.L) : State :=
  { s with blk := { s.blk with S := s.blk.S.write i v } }

/-- A command is offered (10_state.md R28). It is accepted when `CMD_READY = 1`; while RST is asserted it
waits on the port; in the faulted state no step exists (60_exceptions.md R93). -/
def offerCommand (s : State) (c : Command s.p) (rest : List (HostMove s.p)) : Host.Outcome State Fault Refusal :=
  match s.blk.fault with
  | some r => .fault (.faultedState r.code r.cmd)
  | none => if s.RST then .next s else runCommand { s with host := rest } c

/-- A command is offered and RST asserted before its DONE (R101). A command that is not accepted is not cut
off: RST alone acts. -/
def offerThenReset (s : State) (c : Command s.p) (rest : List (HostMove s.p)) : State :=
  if s.CMD_READY then abandonCommand { s with host := rest } c
  else State.assertReset { s with host := rest }

/-- The host makes no move: the block is idle (60_exceptions.md R100), or stopped in the faulted state (R93). -/
def idle (s : State) : Host.Outcome State Fault Refusal :=
  match s.blk.fault with
  | some r => .fault (.faultedState r.code r.cmd)
  | none => .next s

/-- A command put on the command port as the host's next move. -/
def State.offerNext (s : State) (c : Command s.p) : State := { s with host := .offer c :: s.host }

end Sys2Proof.Machine
end

