-- ==== Sys2Proof/Machine/Step.lean ====
section
/-! DEFINITION. One step: the host's next move meets the block (10_state.md R28; 70_reset_and_hazards.md R110). -/

namespace Sys2Proof.Machine

/-- One step of the machine. -/
def step (s : State) : Host.Outcome State Fault Refusal :=
  match s.host with
  | [] => idle s
  | .offer c :: rest => offerCommand s c rest
  | .offerThenReset c :: rest => .next (offerThenReset s c rest)
  | .assertReset :: rest => .next (State.assertReset { s with host := rest })
  | .releaseReset :: rest => .next (State.releaseReset { s with host := rest })
  | .writeLimb i v :: rest => .next (hostWrite { s with host := rest } i v)

/-- The command byte `w` with every operand field 0 as the host's next move: BFX fetches nothing
(20_memory.md R45), its commands come from the host (log 10, log 19). A byte has 8 bits, so `nbits`,
8 for every row of the opcode table, changes nothing. -/
def State.withFetchWord (s : State) (_nbits w : Nat) : State :=
  s.offerNext (Command.ofByte s.p (BitVec.ofNat 8 w))

end Sys2Proof.Machine
end

