-- ==== Sys2Proof/Machine/Assembler.lean ====
section
/-! DEFINITION. The assembler's pseudo-instructions and text (30_encoding.md R56, R57). They add no command:
each stands for one of the 15. -/

namespace Sys2Proof.Machine

/-- The integer written as `val`: a negative one stands for `bv_DW` of it (R56). -/
def asmVal (p : Params) (z : Int) : Nat := (BitVec.ofInt p.DW z).toNat

/-- `ZERO` is `NEWV 0`. -/
def pseudoZero : Instr := .newv 0

/-- `CLRF start, width` is `SET.U start, width, 1, 0`. -/
def pseudoClrf (start width : Nat) : Instr := .setU start width 1 0

/-- `FILLF start, width` is `SET.S start, width, 1, 1`. -/
def pseudoFillf (start width : Nat) : Instr := .setS start width 1 1

/-- `BIT n` is `GET.U n, 1, 1`. -/
def pseudoBit (n : Nat) : Instr := .getU n 1 1

/-- `SETBIT n, b` is `SET.U n, 1, 1, b`. -/
def pseudoSetbit (n b : Nat) : Instr := .setU n 1 1 b

/-- The width `msb-lsb+1` of the range `[msb:lsb]` (R57); 0 when `msb = lsb-1`. For `msb < lsb-1` the rule's width is
negative and the spec gives no meaning; DESIGN CHOICE (log 20): the width is 0 there too. -/
def rangeWidth (msb lsb : Nat) : Nat := msb + 1 - lsb

/-- `GET.U [msb:lsb]` (R57; `msb < lsb-1`: log 20). -/
def pseudoGetU (msb lsb tw : Nat) : Instr := .getU lsb (rangeWidth msb lsb) tw
/-- `GET.S [msb:lsb]` (R57; `msb < lsb-1`: log 20). -/
def pseudoGetS (msb lsb tw : Nat) : Instr := .getS lsb (rangeWidth msb lsb) tw
/-- `SET.U [msb:lsb]` (R57; `msb < lsb-1`: log 20). -/
def pseudoSetU (msb lsb tw val : Nat) : Instr := .setU lsb (rangeWidth msb lsb) tw val
/-- `SET.S [msb:lsb]` (R57; `msb < lsb-1`: log 20). -/
def pseudoSetS (msb lsb tw val : Nat) : Instr := .setS lsb (rangeWidth msb lsb) tw val
/-- `MASK [msb:lsb]` (R57; `msb < lsb-1`: log 20). -/
def pseudoMask (msb lsb : Nat) : Instr := .mask lsb (rangeWidth msb lsb)

/-- Numbers separated by commas, in decimal. -/
def asmList (l : List Nat) : String := String.intercalate ", " (l.map Nat.repr)

/-- The limbs of `B` between braces, limb 0 first. -/
def asmB (B : StorageValue) : String :=
  String.singleton (Char.ofNat 123) ++ asmList (B.limbs.map BitVec.toNat) ++ String.singleton (Char.ofNat 125)

/-- How many bits a number needs. -/
def asmBits (n : Nat) : Nat := if n = 0 then 0 else Nat.log2 n + 1

/-- The `B` written `b0, b1, ..., bN-1`: limbs of `L` bits where every number fits in `L` bits, wider limbs
where one does not, which is another shape (95_test_vectors.md 2.2 row 13; log 13). -/
def asmStorage (p : Params) (l : List Nat) : StorageValue :=
  ⟨(l.map asmBits).foldl max p.L, l.map (BitVec.ofNat _)⟩

/-- The mnemonic of an operation (R53). -/
def asmMnemonic : Opcode → String
  | .lcount => "LCOUNT"
  | .lwidth => "LWIDTH"
  | .getl => "GETL"
  | .setl => "SETL"
  | .getU => "GET.U"
  | .getS => "GET.S"
  | .setU => "SET.U"
  | .setS => "SET.S"
  | .mask => "MASK"
  | .andB => "AND"
  | .orB => "OR"
  | .xorB => "XOR"
  | .notS => "NOT"
  | .newv => "NEWV"
  | .newl => "NEWL"

/-- The operands of a command in the order of R56. -/
def asmOperands : Instr → String
  | .lcount | .lwidth | .notS => ""
  | .getl idx => asmList [idx]
  | .setl idx val => asmList [idx, val]
  | .newv val => asmList [val]
  | .getU start width tw | .getS start width tw => asmList [start, width, tw]
  | .setU start width tw val | .setS start width tw val => asmList [start, width, tw, val]
  | .mask start width => asmList [start, width]
  | .andB B | .orB B | .xorB B | .newl B => asmB B

/-- One line of assembler text (R56): the mnemonic, then the operands. -/
def asmLine (i : Instr) : String :=
  if asmOperands i = "" then asmMnemonic i.opcode else asmMnemonic i.opcode ++ " " ++ asmOperands i

end Sys2Proof.Machine
end

