-- ==== Sys2Proof/Safety.lean ====
section
/-! DEFINITION. What a good state and a good end of a run are, in the terms the statements use. -/

namespace Sys2Proof.Machine

/-- A run ends well (70_reset_and_hazards.md R110): no command is left and `STATUS.FAULT = 0`. -/
def State.EndsWell (s : State) : Prop := s.host = [] ∧ s.blk.FAULT = false

/-- The values of the table of 70_reset_and_hazards.md R101 for the block's registers: STATUS, FCMD, RES, RES_S, DONE. -/
def Block.HoldsResetValues {p : Params} (b : Block p) : Prop :=
  b.STATUS = 0x00#8 ∧ b.FCMD = 0x00#8 ∧ b.RES = none ∧ b.RES_S = none ∧ b.DONE = false

/-- Which commands raise which fault (60_exceptions.md R87, column "raised by"). -/
def FaultCode.raisedBy : FaultCode → Opcode → Bool
  | .illegalCmd, _ => false
  | .targetWidth, o => o.format.fields.contains .TW
  | .zeroWidth, o => o.format.fields.contains .WIDTH
  | .range, o => o.format.fields.contains .WIDTH
  | .limbIndex, o => o.format.fields.contains .IDX
  | .shape, o => o.format.fields.contains .B

/-- A fault record that fault entry can have written: ILLEGAL_CMD with an illegal byte, any other code with
the byte of a command that raises it (60_exceptions.md R87, R88). -/
def FaultRecord.Legal (r : FaultRecord) : Prop :=
  match decodeByte r.cmd with
  | .error _ => r.code = .illegalCmd
  | .ok o => r.code.raisedBy o = true

/-- When a fault condition holds for a command on a build: the causes of 60_exceptions.md R87, each of the
fields the command's format names (R88). ILLEGAL_CMD is no condition on an instruction: an illegal byte
decodes to none. -/
def commandCause (p : Params) : Instr → FaultCode → Prop
  | .getl idx, .limbIndex => p.N ≤ idx
  | .setl idx _, .limbIndex => p.N ≤ idx
  | .getU _ _ tw, .targetWidth => tw = 0 ∨ p.DW < tw
  | .getS _ _ tw, .targetWidth => tw = 0 ∨ p.DW < tw
  | .setU _ _ tw _, .targetWidth => tw = 0 ∨ p.DW < tw
  | .setS _ _ tw _, .targetWidth => tw = 0 ∨ p.DW < tw
  | .getU _ width _, .zeroWidth => width = 0
  | .getS _ width _, .zeroWidth => width = 0
  | .setU _ width _ _, .zeroWidth => width = 0
  | .setS _ width _ _, .zeroWidth => width = 0
  | .mask _ width, .zeroWidth => width = 0
  | .getU start width _, .range => p.T < start + width
  | .getS start width _, .range => p.T < start + width
  | .setU start width _ _, .range => p.T < start + width
  | .setS start width _ _, .range => p.T < start + width
  | .mask start width, .range => p.T < start + width
  | .andB B, .shape => B.shape ≠ (p.N, p.L)
  | .orB B, .shape => B.shape ≠ (p.N, p.L)
  | .xorB B, .shape => B.shape ≠ (p.N, p.L)
  | .newl B, .shape => B.shape ≠ (p.N, p.L)
  | _, _ => False

/-- Fault entry as 60_exceptions.md R91 and R92 give it: the command takes the fault `code`, `STATUS` and
`FCMD` are written, `DONE` is signalled, and no limb, `RES` or `RES_S` is read, written or changed. -/
def FaultsWith (i : Instr) (s : State) (code : FaultCode) (cmd : Byte) : Prop :=
  ∃ b : Block s.p, exec i s = .next { s with blk := b } ∧
    b.S = s.blk.S ∧ b.RES = s.blk.RES ∧ b.RES_S = s.blk.RES_S ∧
    b.fault = some ⟨code, cmd⟩ ∧ b.STATUS = (BitVec.ofNat 8 code.num <<< 4) ||| 1#8 ∧ b.FCMD = cmd ∧
    b.DONE = true ∧ b.accesses = []

/-- The index of an access on the storage port. -/
def Access.idx {L : Nat} : Access L → Nat
  | .read i _ => i
  | .write i _ => i

/-- Is the access a read? -/
def Access.isRead {L : Nat} : Access L → Bool
  | .read _ _ => true
  | .write _ _ => false

/-- The indexes of the limbs read, of a list of accesses. -/
def readsOf {L : Nat} (l : List (Access L)) : List Nat := (l.filter fun a => a.isRead).map Access.idx

/-- The indexes of the limbs written, of a list of accesses. -/
def writesOf {L : Nat} (l : List (Access L)) : List Nat := (l.filter fun a => !a.isRead).map Access.idx

/-- The limbs from `START div L` to `(START + WIDTH - 1) div L` (20_memory.md R37). -/
def rangeLimbs (p : Params) (start width : Nat) : List Nat :=
  List.range' (start / p.L) ((start + width - 1) / p.L - start / p.L + 1)

/-- The column "limbs read" of 20_memory.md R37. -/
def limbsRead (p : Params) : Instr → List Nat
  | .lcount | .lwidth | .setl _ _ | .newv _ | .newl _ | .mask _ _ => []
  | .getl idx => [idx]
  | .getU start width _ | .getS start width _ => rangeLimbs p start width
  | .setU start width _ _ | .setS start width _ _ => rangeLimbs p start width
  | .andB _ | .orB _ | .xorB _ | .notS => List.range p.N

/-- The column "limbs written" of 20_memory.md R37. -/
def limbsWritten (p : Params) : Instr → List Nat
  | .lcount | .lwidth | .getl _ | .mask _ _ | .getU _ _ _ | .getS _ _ _ => []
  | .andB _ | .orB _ | .xorB _ | .notS => []
  | .setl idx _ => [idx]
  | .setU start width _ _ | .setS start width _ _ => rangeLimbs p start width
  | .newv _ | .newl _ => List.range p.N

/-- The invariant of the block: the storage is in canonical form with no limb outside `0 .. N-1`
(20_memory.md R47), every access named a limb of the storage (R34), and a fault record is legal, was
written by a command that is done, and that command accessed no limb (60_exceptions.md R91, R92). -/
structure Block.Inv {p : Params} (b : Block p) : Prop where
  storage_wf : b.S.wf p.N = true
  accesses_in : ∀ a ∈ b.accesses, a.idx < p.N
  fault_legal : ∀ r, b.fault = some r → r.Legal
  fault_done : b.fault.isSome = true → b.DONE = true ∧ b.accesses = []

/-- The invariant of the machine: that of the block, and while RST is asserted every register has its
reset value (70_reset_and_hazards.md R101). -/
structure State.Inv (s : State) : Prop where
  blk_inv : s.blk.Inv
  reset_held : s.RST = true → s.blk = Block.reset s.blk.S

end Sys2Proof.Machine
end

