-- ==== Sys2Proof/Certificates/Slice0/Obligations.lean ====
section
/-! DEFINITION. The statements for the provers. `s.CMD_READY = true` says that the block accepts a command
(10_state.md R28): RST is released and `STATUS.FAULT = 0`. A next state is written `{ s with blk := b }`
where only the block (with its storage) may change; the clauses then say what `b` holds. The build `s.p` is any
legal one, so each statement is about every `N`, `L`, `DW`, `PW`, `TWB` and every order of 00_scope.md R10. -/

open Sys2Proof Sys2Proof.Machine

/-! ### Encoding -/

/-- The opcode map (30_encoding.md R53), row by row: what each command byte decodes to, and its columns
OPC, SG and format. -/
def Obligations.OpcodeMapDecodes : Prop :=
  (∀ (p : Params) (c : Command p),
    (c.CMD = 0x00#8 → decode c = .ok .lcount) ∧
    (c.CMD = 0x01#8 → decode c = .ok .lwidth) ∧
    (c.CMD = 0x02#8 → decode c = .ok (.getl c.IDX.toNat)) ∧
    (c.CMD = 0x03#8 → decode c = .ok (.setl c.IDX.toNat c.VAL.toNat)) ∧
    (c.CMD = 0x04#8 → decode c = .ok (.getU c.START.toNat c.WIDTH.toNat c.TW.toNat)) ∧
    (c.CMD = 0x14#8 → decode c = .ok (.getS c.START.toNat c.WIDTH.toNat c.TW.toNat)) ∧
    (c.CMD = 0x05#8 → decode c = .ok (.setU c.START.toNat c.WIDTH.toNat c.TW.toNat c.VAL.toNat)) ∧
    (c.CMD = 0x15#8 → decode c = .ok (.setS c.START.toNat c.WIDTH.toNat c.TW.toNat c.VAL.toNat)) ∧
    (c.CMD = 0x06#8 → decode c = .ok (.mask c.START.toNat c.WIDTH.toNat)) ∧
    (c.CMD = 0x07#8 → decode c = .ok (.andB c.B)) ∧
    (c.CMD = 0x08#8 → decode c = .ok (.orB c.B)) ∧
    (c.CMD = 0x09#8 → decode c = .ok (.xorB c.B)) ∧
    (c.CMD = 0x0A#8 → decode c = .ok .notS) ∧
    (c.CMD = 0x0B#8 → decode c = .ok (.newv c.VAL.toNat)) ∧
    (c.CMD = 0x0C#8 → decode c = .ok (.newl c.B))) ∧
  [Opcode.lcount, .lwidth, .getl, .setl, .getU, .getS, .setU, .setS, .mask, .andB, .orB, .xorB, .notS, .newv,
      .newl].map (fun o => (opcField o.byte, sgField o.byte, o.format)) =
    [(0x0#4, false, Format.FN), (0x1#4, false, .FN), (0x2#4, false, .FI), (0x3#4, false, .FIV),
     (0x4#4, false, .FR), (0x4#4, true, .FR), (0x5#4, false, .FRV), (0x5#4, true, .FRV), (0x6#4, false, .FM),
     (0x7#4, false, .FB), (0x8#4, false, .FB), (0x9#4, false, .FB), (0xA#4, false, .FN), (0xB#4, false, .FV),
     (0xC#4, false, .FB)]

/-- Decoding is total; the illegal bytes are those of R54; an illegal byte raises ILLEGAL_CMD with
`FCMD <- CMD` and has no other effect (the storage, `RES` and `RES_S` stay, no limb is accessed). -/
def Obligations.IllegalBytesRaiseIllegalCmd : Prop :=
  (∀ (p : Params) (c : Command p),
    ((∃ e, decode c = .error e) ↔
      (c.CMD.extractLsb' 5 3 ≠ 0#3 ∨ c.CMD.extractLsb' 0 4 ∈ [0xD#4, 0xE#4, 0xF#4] ∨
        (c.CMD.getLsbD 4 = true ∧ c.CMD.extractLsb' 0 4 ∉ [0x4#4, 0x5#4]))) ∧
    ((∃ i, decode c = .ok i) ↔
      c.CMD ∈ [0x00#8, 0x01#8, 0x02#8, 0x03#8, 0x04#8, 0x05#8, 0x06#8, 0x07#8, 0x08#8, 0x09#8, 0x0A#8, 0x0B#8,
        0x0C#8, 0x14#8, 0x15#8]) ∧
    (∀ i, decode c = .ok i → i.opcode.byte = c.CMD)) ∧
  (∀ (s : State) (c : Command s.p) (rest : List (HostMove s.p)), s.host = .offer c :: rest →
    s.CMD_READY = true → (∃ e, decode c = .error e) →
    ∃ b : Block s.p, step s = .next { s with blk := b, host := rest } ∧
      b.fault = some ⟨.illegalCmd, c.CMD⟩ ∧ b.STATUS = 0x11#8 ∧ b.FCMD = c.CMD ∧ b.DONE = true ∧
      b.S = s.blk.S ∧ b.RES = s.blk.RES ∧ b.RES_S = s.blk.RES_S ∧ b.accesses = [])

/-- Decode and encode agree, both ways: a well-formed instruction is read back from its encoding, with every
operand; and a command that decodes is the encoding of its instruction, on its byte and on every field its
format names. -/
def Obligations.DecodeAndEncodeAgree : Prop :=
  (∀ (p : Params) (i : Instr), i.WellFormed p = true → decode (encode p i) = .ok i) ∧
  (∀ (p : Params) (c : Command p) (i : Instr), decode c = .ok i →
    i.WellFormed p = true ∧ (encode p i).CMD = c.CMD ∧
    (OperandField.START ∈ i.opcode.format.fields → (encode p i).START = c.START) ∧
    (OperandField.WIDTH ∈ i.opcode.format.fields → (encode p i).WIDTH = c.WIDTH) ∧
    (OperandField.TW ∈ i.opcode.format.fields → (encode p i).TW = c.TW) ∧
    (OperandField.VAL ∈ i.opcode.format.fields → (encode p i).VAL = c.VAL) ∧
    (OperandField.IDX ∈ i.opcode.format.fields → (encode p i).IDX = c.IDX) ∧
    (OperandField.B ∈ i.opcode.format.fields → (encode p i).B = c.B))

/-- Fields a format does not name are neither read nor checked: two commands with one byte and the same named
fields decode alike (30_encoding.md R48, R51; 60_exceptions.md R88). -/
def Obligations.UnnamedFieldsAreIgnored : Prop :=
  ∀ (p : Params) (c d : Command p) (o : Opcode), decodeByte c.CMD = .ok o → d.CMD = c.CMD →
    (OperandField.START ∈ o.format.fields → d.START = c.START) →
    (OperandField.WIDTH ∈ o.format.fields → d.WIDTH = c.WIDTH) →
    (OperandField.TW ∈ o.format.fields → d.TW = c.TW) →
    (OperandField.VAL ∈ o.format.fields → d.VAL = c.VAL) →
    (OperandField.IDX ∈ o.format.fields → d.IDX = c.IDX) →
    (OperandField.B ∈ o.format.fields → d.B = c.B) →
    decode d = decode c

/-- A step runs the decoded instruction: an offered command that is accepted leaves the host's list and runs
(that the host's offers stand in a list is the model's choice, log 10). -/
def Obligations.StepRunsTheDecodedInstruction : Prop :=
  ∀ (s : State) (c : Command s.p) (rest : List (HostMove s.p)) (i : Instr), s.host = .offer c :: rest →
    s.CMD_READY = true → decode c = .ok i → step s = exec i { s with host := rest }

/-! ### Storage abstraction and construction (40_storage.md) -/

/-- LCOUNT (R58); the result is exact. -/
def Obligations.LcountResult : Prop :=
  (∀ s : State, s.CMD_READY = true →
    ∃ b : Block s.p, exec .lcount s = .next { s with blk := b } ∧
      b.RES = some (BitVec.ofNat s.p.DW s.p.N) ∧ (BitVec.ofNat s.p.DW s.p.N).toNat = s.p.N ∧
      b.S = s.blk.S ∧ b.RES_S = s.blk.RES_S ∧ b.fault = none ∧ b.DONE = true ∧ b.k = s.blk.k + 1 ∧
      b.accesses = []) ∧
  decodeByte 0x00#8 = .ok .lcount

/-- LWIDTH (R59); the result is exact. -/
def Obligations.LwidthResult : Prop :=
  (∀ s : State, s.CMD_READY = true →
    ∃ b : Block s.p, exec .lwidth s = .next { s with blk := b } ∧
      b.RES = some (BitVec.ofNat s.p.DW s.p.L) ∧ (BitVec.ofNat s.p.DW s.p.L).toNat = s.p.L ∧
      b.S = s.blk.S ∧ b.RES_S = s.blk.RES_S ∧ b.fault = none ∧ b.DONE = true ∧ b.k = s.blk.k + 1 ∧
      b.accesses = []) ∧
  decodeByte 0x01#8 = .ok .lwidth

/-- GETL (R60): the limb, zero-extended; LIMB_INDEX from `N` on. -/
def Obligations.GetlResult : Prop :=
  (∀ (s : State) (idx : Nat), s.CMD_READY = true →
    (idx < s.p.N →
      ∃ b : Block s.p, exec (.getl idx) s = .next { s with blk := b } ∧
        b.RES = some ((s.blk.limb idx).setWidth s.p.DW) ∧
        b.S = s.blk.S ∧ b.RES_S = s.blk.RES_S ∧ b.fault = none ∧ b.DONE = true ∧ b.k = s.blk.k + 1 ∧
        b.accesses = [.read idx (s.blk.limb idx)]) ∧
    (s.p.N ≤ idx → FaultsWith (.getl idx) s .limbIndex 0x02#8)) ∧
  decodeByte 0x02#8 = .ok .getl

/-- SETL (R61): the limb takes `VAL[L-1:0]`, every other limb stays; LIMB_INDEX from `N` on. -/
def Obligations.SetlResult : Prop :=
  (∀ (s : State) (idx val : Nat), s.CMD_READY = true →
    (idx < s.p.N →
      ∃ b : Block s.p, exec (.setl idx val) s = .next { s with blk := b } ∧
        b.limb idx = BitVec.ofNat s.p.L val ∧ (∀ j, j ≠ idx → b.limb j = s.blk.limb j) ∧
        b.RES = s.blk.RES ∧ b.RES_S = s.blk.RES_S ∧ b.fault = none ∧ b.DONE = true ∧ b.k = s.blk.k + 1 ∧
        b.accesses = [.write idx (BitVec.ofNat s.p.L val)]) ∧
    (s.p.N ≤ idx → FaultsWith (.setl idx val) s .limbIndex 0x03#8)) ∧
  decodeByte 0x03#8 = .ok .setl

/-- NEWV (R62): every limb takes its part of the `DW` bits of VAL, so the storage reads `nat(VAL) mod 2^T`. -/
def Obligations.NewvResult : Prop :=
  (∀ (s : State) (val : Nat), s.CMD_READY = true →
    ∃ b : Block s.p, exec (.newv val) s = .next { s with blk := b } ∧
      (∀ i, i < s.p.N → b.limb i = BitVec.ofNat s.p.L ((val % 2 ^ s.p.DW) >>> (i * s.p.L))) ∧
      (∀ i, s.p.N ≤ i → b.limb i = s.blk.limb i) ∧
      b.sint = (val % 2 ^ s.p.DW) % 2 ^ s.p.T ∧
      b.RES = s.blk.RES ∧ b.RES_S = s.blk.RES_S ∧ b.fault = none ∧ b.DONE = true ∧ b.k = s.blk.k + 1 ∧
      readsOf b.accesses = [] ∧ (writesOf b.accesses).Perm (List.range s.p.N)) ∧
  decodeByte 0x0B#8 = .ok .newv

/-- NEWL (R63): every limb takes its limb of `B`; SHAPE when `B` is not `N` limbs of `L` bits. -/
def Obligations.NewlResult : Prop :=
  (∀ s : State, s.CMD_READY = true →
    (∀ limbs : Vector (BitVec s.p.L) s.p.N,
      ∃ b : Block s.p, exec (.newl ⟨s.p.L, limbs.toList⟩) s = .next { s with blk := b } ∧
        (∀ i : Fin s.p.N, b.limb i = limbs[i]) ∧ (∀ j, s.p.N ≤ j → b.limb j = s.blk.limb j) ∧
        b.RES = s.blk.RES ∧ b.RES_S = s.blk.RES_S ∧ b.fault = none ∧ b.DONE = true ∧ b.k = s.blk.k + 1 ∧
        readsOf b.accesses = [] ∧ (writesOf b.accesses).Perm (List.range s.p.N)) ∧
    (∀ B : StorageValue, B.shape ≠ (s.p.N, s.p.L) → FaultsWith (.newl B) s .shape 0x0C#8)) ∧
  decodeByte 0x0C#8 = .ok .newl

/-! ### Bit-range engine (41_bitrange.md) -/

/-- GET.U (R67): the field of `Sint`, as an unsigned number of `TW` bits, zero-extended to `DW`; and the faults
of the range in the order of the checks. -/
def Obligations.GetUnsignedResult : Prop :=
  (∀ (s : State) (start width tw : Nat), s.CMD_READY = true →
    (1 ≤ tw → tw ≤ s.p.DW → 1 ≤ width → start + width ≤ s.p.T →
      ∃ b : Block s.p, exec (.getU start width tw) s = .next { s with blk := b } ∧
        b.RES = some ((BitVec.ofNat tw ((s.blk.sint >>> start) % 2 ^ width)).setWidth s.p.DW) ∧
        b.S = s.blk.S ∧ b.RES_S = s.blk.RES_S ∧ b.fault = none ∧ b.DONE = true ∧ b.k = s.blk.k + 1 ∧
        (readsOf b.accesses).Perm (rangeLimbs s.p start width) ∧ writesOf b.accesses = []) ∧
    (tw = 0 ∨ s.p.DW < tw → FaultsWith (.getU start width tw) s .targetWidth 0x04#8) ∧
    (1 ≤ tw → tw ≤ s.p.DW → width = 0 → FaultsWith (.getU start width tw) s .zeroWidth 0x04#8) ∧
    (1 ≤ tw → tw ≤ s.p.DW → 1 ≤ width → s.p.T < start + width →
      FaultsWith (.getU start width tw) s .range 0x04#8)) ∧
  decodeByte 0x04#8 = .ok .getU

/-- GET.S (R68): the field of `Sint`, as a two's-complement number of `TW` bits, zero-extended to `DW`. -/
def Obligations.GetSignedResult : Prop :=
  (∀ (s : State) (start width tw : Nat), s.CMD_READY = true →
    (1 ≤ tw → tw ≤ s.p.DW → 1 ≤ width → start + width ≤ s.p.T →
      ∃ b : Block s.p, exec (.getS start width tw) s = .next { s with blk := b } ∧
        b.RES = some ((BitVec.ofInt tw (BitVec.ofNat width (s.blk.sint >>> start)).toInt).setWidth s.p.DW) ∧
        b.S = s.blk.S ∧ b.RES_S = s.blk.RES_S ∧ b.fault = none ∧ b.DONE = true ∧ b.k = s.blk.k + 1 ∧
        (readsOf b.accesses).Perm (rangeLimbs s.p start width) ∧ writesOf b.accesses = []) ∧
    (tw = 0 ∨ s.p.DW < tw → FaultsWith (.getS start width tw) s .targetWidth 0x14#8) ∧
    (1 ≤ tw → tw ≤ s.p.DW → width = 0 → FaultsWith (.getS start width tw) s .zeroWidth 0x14#8) ∧
    (1 ≤ tw → tw ≤ s.p.DW → 1 ≤ width → s.p.T < start + width →
      FaultsWith (.getS start width tw) s .range 0x14#8)) ∧
  decodeByte 0x14#8 = .ok .getS

/-- SET.U (R70): the field of `Sint` takes `VAL[TW-1:0]`, truncated or zero-extended to the field's width, by the
formula of R69; limbs outside the range stay. -/
def Obligations.SetUnsignedResult : Prop :=
  (∀ (s : State) (start width tw val : Nat), s.CMD_READY = true →
    (1 ≤ tw → tw ≤ s.p.DW → 1 ≤ width → start + width ≤ s.p.T →
      ∃ b : Block s.p, exec (.setU start width tw val) s = .next { s with blk := b } ∧
        b.sint = (s.blk.sint &&& ((2 ^ s.p.T - 1) ^^^ ((2 ^ width - 1) <<< start))) |||
          ((BitVec.ofNat width (BitVec.ofNat tw val).toNat).toNat <<< start) ∧
        (∀ i, (i < start / s.p.L ∨ (start + width - 1) / s.p.L < i) → b.limb i = s.blk.limb i) ∧
        b.RES = s.blk.RES ∧ b.RES_S = s.blk.RES_S ∧ b.fault = none ∧ b.DONE = true ∧ b.k = s.blk.k + 1 ∧
        (readsOf b.accesses).Perm (rangeLimbs s.p start width) ∧
        (writesOf b.accesses).Perm (rangeLimbs s.p start width)) ∧
    (tw = 0 ∨ s.p.DW < tw → FaultsWith (.setU start width tw val) s .targetWidth 0x05#8) ∧
    (1 ≤ tw → tw ≤ s.p.DW → width = 0 → FaultsWith (.setU start width tw val) s .zeroWidth 0x05#8) ∧
    (1 ≤ tw → tw ≤ s.p.DW → 1 ≤ width → s.p.T < start + width →
      FaultsWith (.setU start width tw val) s .range 0x05#8)) ∧
  decodeByte 0x05#8 = .ok .setU

/-- SET.S (R71): the field of `Sint` takes `VAL[TW-1:0]`, truncated or sign-extended to the field's width, by the
formula of R69; limbs outside the range stay. -/
def Obligations.SetSignedResult : Prop :=
  (∀ (s : State) (start width tw val : Nat), s.CMD_READY = true →
    (1 ≤ tw → tw ≤ s.p.DW → 1 ≤ width → start + width ≤ s.p.T →
      ∃ b : Block s.p, exec (.setS start width tw val) s = .next { s with blk := b } ∧
        b.sint = (s.blk.sint &&& ((2 ^ s.p.T - 1) ^^^ ((2 ^ width - 1) <<< start))) |||
          ((BitVec.ofInt width (BitVec.ofNat tw val).toInt).toNat <<< start) ∧
        (∀ i, (i < start / s.p.L ∨ (start + width - 1) / s.p.L < i) → b.limb i = s.blk.limb i) ∧
        b.RES = s.blk.RES ∧ b.RES_S = s.blk.RES_S ∧ b.fault = none ∧ b.DONE = true ∧ b.k = s.blk.k + 1 ∧
        (readsOf b.accesses).Perm (rangeLimbs s.p start width) ∧
        (writesOf b.accesses).Perm (rangeLimbs s.p start width)) ∧
    (tw = 0 ∨ s.p.DW < tw → FaultsWith (.setS start width tw val) s .targetWidth 0x15#8) ∧
    (1 ≤ tw → tw ≤ s.p.DW → width = 0 → FaultsWith (.setS start width tw val) s .zeroWidth 0x15#8) ∧
    (1 ≤ tw → tw ≤ s.p.DW → 1 ≤ width → s.p.T < start + width →
      FaultsWith (.setS start width tw val) s .range 0x15#8)) ∧
  decodeByte 0x15#8 = .ok .setS

/-- MASK (R72): every limb of `RES_S` takes its part of the field mask; no limb of the storage is accessed. -/
def Obligations.MaskResult : Prop :=
  (∀ (s : State) (start width : Nat), s.CMD_READY = true →
    (1 ≤ width → start + width ≤ s.p.T →
      ∃ b : Block s.p, exec (.mask start width) s = .next { s with blk := b } ∧
        b.RES_S = some (Vector.ofFn fun i : Fin s.p.N =>
          BitVec.ofNat s.p.L (((2 ^ width - 1) <<< start) >>> (i.val * s.p.L))) ∧
        b.S = s.blk.S ∧ b.RES = s.blk.RES ∧ b.fault = none ∧ b.DONE = true ∧ b.k = s.blk.k + 1 ∧
        b.accesses = []) ∧
    (width = 0 → FaultsWith (.mask start width) s .zeroWidth 0x06#8) ∧
    (1 ≤ width → s.p.T < start + width → FaultsWith (.mask start width) s .range 0x06#8)) ∧
  decodeByte 0x06#8 = .ok .mask

/-- Extraction (R65): limb by limb it is the field of `Sint`, the single-limb formula when the range lies in one
limb, and the same for every limb width. -/
def Obligations.ExtractionIsTheFieldOfTheWholeStorage : Prop :=
  (∀ (p : Params) (b : Block p) (s w : Nat), 1 ≤ w → s + w ≤ p.T →
    extract b s w = BitVec.ofNat w (b.sint >>> s) ∧
    (s / p.L = (s + w - 1) / p.L →
      extract b s w = BitVec.ofNat w (((b.limb (s / p.L)).toNat >>> (s % p.L)) &&& (2 ^ w - 1)))) ∧
  (∀ (p q : Params) (b : Block p) (c : Block q) (s w : Nat), 1 ≤ w → s + w ≤ p.T → p.T = q.T →
    b.sint = c.sint → extract b s w = extract c s w)

/-- Insertion (R69): on `Sint` it is the formula in `T` bits; at limb level every limb of the range takes the masked
merge, no other limb changes, and the limbs of the range are written once each, in the order that the build's
parameter LIMB_WRITE_ORDER gives (20_memory.md R41), which ascends by default. The form of that parameter, an order
fixed by the limbs covered, is the model's choice (log 9). -/
def Obligations.InsertionMergesTheField : Prop :=
  ∀ (p : Params) (b : Block p) (s w : Nat) (x : BitVec w), 1 ≤ w → s + w ≤ p.T →
    (b.writeField s w x).sint =
      (b.sint &&& ((2 ^ p.T - 1) ^^^ ((2 ^ w - 1) <<< s))) ||| (x.toNat <<< s) ∧
    (∀ i, s / p.L ≤ i → i ≤ (s + w - 1) / p.L →
      ∃ m : BitVec p.L, (∀ j, j < p.L → m.getLsbD j = decide (s ≤ i * p.L + j ∧ i * p.L + j < s + w)) ∧
        (b.writeField s w x).limb i =
          (b.limb i &&& ~~~m) ||| (BitVec.ofNat p.L ((x.toNat <<< s) >>> (i * p.L)) &&& m)) ∧
    (∀ i, (i < s / p.L ∨ (s + w - 1) / p.L < i) → (b.writeField s w x).limb i = b.limb i) ∧
    ∃ order : List Nat, order.Perm (rangeLimbs p s w) ∧
      order = placesInOrder p.LIMB_WRITE_ORDER (s / p.L) ((s + w - 1) / p.L - s / p.L + 1) ∧
      (p.LIMB_WRITE_ORDER = .ascending → order = rangeLimbs p s w) ∧
      writesOf (b.writeField s w x).accesses = writesOf b.accesses ++ order

/-- Round trip (R73). -/
def Obligations.SetThenGetReturnsTheValue : Prop :=
  ∀ (s : State) (start width tw x : Nat), s.CMD_READY = true → 1 ≤ width → start + width ≤ s.p.T →
    width ≤ s.p.DW → width ≤ tw → tw ≤ s.p.DW → x < 2 ^ width →
    ∃ b c : Block s.p, exec (.setU start width width x) s = .next { s with blk := b } ∧
      exec (.getU start width tw) { s with blk := b } = .next { s with blk := c } ∧
      c.RES = some (BitVec.ofNat s.p.DW x)

/-- Non-interference (R74), for every mix of SET.U and SET.S and both GETs: disjoint SETs commute, a GET of any third
range disjoint from both returns what it returned before, and every SET leaves every bit outside its range. -/
def Obligations.DisjointFieldsDoNotInterfere : Prop :=
  ∀ (setA setB : Nat → Nat → Nat → Nat → Instr), (setA = Instr.setU ∨ setA = Instr.setS) →
    (setB = Instr.setU ∨ setB = Instr.setS) →
    ∀ (s : State) (sA wA tA vA : Nat), s.CMD_READY = true → 1 ≤ tA → tA ≤ s.p.DW → 1 ≤ wA → sA + wA ≤ s.p.T →
      ∃ a : Block s.p, exec (setA sA wA tA vA) s = .next { s with blk := a } ∧
        (∀ j, ¬(sA ≤ j ∧ j < sA + wA) → a.bit j = s.blk.bit j) ∧
        ∀ sB wB tB vB : Nat, 1 ≤ tB → tB ≤ s.p.DW → 1 ≤ wB → sB + wB ≤ s.p.T → (sA + wA ≤ sB ∨ sB + wB ≤ sA) →
          ∃ ab b ba : Block s.p,
            exec (setB sB wB tB vB) { s with blk := a } = .next { s with blk := ab } ∧
            exec (setB sB wB tB vB) s = .next { s with blk := b } ∧
            exec (setA sA wA tA vA) { s with blk := b } = .next { s with blk := ba } ∧
            (∀ i, ab.limb i = ba.limb i) ∧
            ∀ (getC : Nat → Nat → Nat → Instr) (sC wC tC : Nat), (getC = Instr.getU ∨ getC = Instr.getS) →
              1 ≤ tC → tC ≤ s.p.DW → 1 ≤ wC → sC + wC ≤ s.p.T →
              (sA + wA ≤ sC ∨ sC + wC ≤ sA) → (sB + wB ≤ sC ∨ sC + wC ≤ sB) →
              ∃ g g' : Block s.p, exec (getC sC wC tC) s = .next { s with blk := g } ∧
                exec (getC sC wC tC) { s with blk := ab } = .next { s with blk := g' } ∧ g.RES = g'.RES

/-- Sign round trip (R75): after any SET that writes all ones, the field reads -1 signed at every legal target width,
and `2^w - 1` unsigned. A SET.U writes all ones when its value has `w` ones and its target width holds them; a SET.S when
the bits it takes of its value are ones, as those of `SET.S s, w, w, bv_DW(-1)` and of `FILLF s, w` are. -/
def Obligations.AllOnesReadsMinusOne : Prop :=
  ∀ (s : State) (start width tw tset val : Nat) (i : Instr), s.CMD_READY = true → 1 ≤ width → start + width ≤ s.p.T →
    width ≤ s.p.DW → 1 ≤ tw → tw ≤ s.p.DW → 1 ≤ tset → tset ≤ s.p.DW →
    ((i = .setU start width tset val ∧ width ≤ tset ∧ val % 2 ^ width = 2 ^ width - 1) ∨
     (i = .setS start width tset val ∧ val % 2 ^ min width tset = 2 ^ min width tset - 1) ∨
     i = .setS start width width (BitVec.ofInt s.p.DW (-1)).toNat ∨ i = pseudoFillf start width) →
    ∃ (b c d : Block s.p) (r : BitVec tw) (u : BitVec s.p.DW), exec i s = .next { s with blk := b } ∧
      exec (.getS start width tw) { s with blk := b } = .next { s with blk := c } ∧
      c.RES = some (r.setWidth s.p.DW) ∧ r.toInt = -1 ∧
      exec (.getU start width width) { s with blk := b } = .next { s with blk := d } ∧
      d.RES = some u ∧ u.toNat = 2 ^ width - 1

/-- Spanning equivalence (R76), between ANY two builds of the same total width (a one-limb storage of `T` bits among
them) holding the same `Sint`: GET and SET give the same results, whatever the limbs. -/
def Obligations.LimbGranularityIsNotVisible : Prop :=
  ∀ (s t : State) (start width tw val : Nat), s.CMD_READY = true → t.CMD_READY = true → s.p.T = t.p.T →
    s.blk.sint = t.blk.sint → 1 ≤ tw → tw ≤ s.p.DW → tw ≤ t.p.DW → 1 ≤ width → start + width ≤ s.p.T →
    (∀ getI : Nat → Nat → Nat → Instr, (getI = Instr.getU ∨ getI = Instr.getS) →
      ∃ (b : Block s.p) (c : Block t.p) (r : BitVec s.p.DW) (q : BitVec t.p.DW),
        exec (getI start width tw) s = .next { s with blk := b } ∧
        exec (getI start width tw) t = .next { t with blk := c } ∧
        b.RES = some r ∧ c.RES = some q ∧ r.toNat = q.toNat) ∧
    (∀ setI : Nat → Nat → Nat → Nat → Instr, (setI = Instr.setU ∨ setI = Instr.setS) →
      ∃ (b : Block s.p) (c : Block t.p),
        exec (setI start width tw val) s = .next { s with blk := b } ∧
        exec (setI start width tw val) t = .next { t with blk := c } ∧ b.sint = c.sint)

/-- Mask correctness (R77): the mask has ones exactly at the storage positions of the range, `w` of them, and a SET of
the same range leaves `S & ~RES_S`. -/
def Obligations.MaskMarksExactlyTheField : Prop :=
  ∀ (s : State) (start width : Nat), s.CMD_READY = true → 1 ≤ width → start + width ≤ s.p.T →
    ∃ (b : Block s.p) (m : Vector (BitVec s.p.L) s.p.N), exec (.mask start width) s = .next { s with blk := b } ∧
      b.RES_S = some m ∧
      (∀ (i : Fin s.p.N) (j : Nat), j < s.p.L →
        m[i].getLsbD j = decide (start ≤ i.val * s.p.L + j ∧ i.val * s.p.L + j < start + width)) ∧
      ((List.range s.p.T).filter fun j => (m.toList.getD (j / s.p.L) 0#s.p.L).getLsbD (j % s.p.L)).length = width ∧
      (∀ (setI : Nat → Nat → Nat → Nat → Instr) (tw val : Nat), (setI = Instr.setU ∨ setI = Instr.setS) →
        1 ≤ tw → tw ≤ s.p.DW →
        ∃ c : Block s.p, exec (setI start width tw val) s = .next { s with blk := c } ∧
          ∀ i : Fin s.p.N, c.limb i &&& ~~~m[i] = s.blk.limb i &&& ~~~m[i])

/-- Totality on valid descriptors (R78): with a legal target width and a valid range no command of the family faults,
whatever the storage and the value. -/
def Obligations.ValidRangesNeverFault : Prop :=
  ∀ (s : State) (start width tw val : Nat) (i : Instr), s.CMD_READY = true → 1 ≤ tw → tw ≤ s.p.DW → 1 ≤ width →
    start + width ≤ s.p.T →
    i ∈ [Instr.getU start width tw, .getS start width tw, .setU start width tw val, .setS start width tw val,
      .mask start width] →
    ∃ b : Block s.p, exec i s = .next { s with blk := b } ∧ b.fault = none ∧ b.DONE = true

/-- Truncation is never a fault (60_exceptions.md R86): a value of any size for SET, SETL and NEWV, a target
narrower than the field for GET. -/
def Obligations.TruncationNeverFaults : Prop :=
  ∀ (s : State) (start width tw idx val : Nat) (i : Instr), s.CMD_READY = true → 1 ≤ tw → tw ≤ s.p.DW →
    1 ≤ width → start + width ≤ s.p.T → idx < s.p.N →
    ((i ∈ [Instr.setU start width tw val, .setS start width tw val] ∧ 2 ^ width ≤ val) ∨
     (i ∈ [Instr.getU start width tw, .getS start width tw] ∧ tw < width) ∨
     (i = .setl idx val ∧ 2 ^ s.p.L ≤ val) ∨ (i = .newv val ∧ 2 ^ s.p.T ≤ val)) →
    ∃ b : Block s.p, exec i s = .next { s with blk := b } ∧ b.fault = none ∧ b.DONE = true

/-! ### Whole-storage bitwise commands (42_bitwise.md) -/

/-- AND (R80). -/
def Obligations.AndResult : Prop :=
  (∀ s : State, s.CMD_READY = true →
    (∀ limbs : Vector (BitVec s.p.L) s.p.N,
      ∃ b : Block s.p, exec (.andB ⟨s.p.L, limbs.toList⟩) s = .next { s with blk := b } ∧
        b.RES_S = some (Vector.ofFn fun i : Fin s.p.N => s.blk.limb i &&& limbs[i]) ∧
        b.S = s.blk.S ∧ b.RES = s.blk.RES ∧ b.fault = none ∧ b.DONE = true ∧ b.k = s.blk.k + 1) ∧
    (∀ B : StorageValue, B.shape ≠ (s.p.N, s.p.L) → FaultsWith (.andB B) s .shape 0x07#8)) ∧
  decodeByte 0x07#8 = .ok .andB

/-- OR (R81). -/
def Obligations.OrResult : Prop :=
  (∀ s : State, s.CMD_READY = true →
    (∀ limbs : Vector (BitVec s.p.L) s.p.N,
      ∃ b : Block s.p, exec (.orB ⟨s.p.L, limbs.toList⟩) s = .next { s with blk := b } ∧
        b.RES_S = some (Vector.ofFn fun i : Fin s.p.N => s.blk.limb i ||| limbs[i]) ∧
        b.S = s.blk.S ∧ b.RES = s.blk.RES ∧ b.fault = none ∧ b.DONE = true ∧ b.k = s.blk.k + 1) ∧
    (∀ B : StorageValue, B.shape ≠ (s.p.N, s.p.L) → FaultsWith (.orB B) s .shape 0x08#8)) ∧
  decodeByte 0x08#8 = .ok .orB

/-- XOR (R82). -/
def Obligations.XorResult : Prop :=
  (∀ s : State, s.CMD_READY = true →
    (∀ limbs : Vector (BitVec s.p.L) s.p.N,
      ∃ b : Block s.p, exec (.xorB ⟨s.p.L, limbs.toList⟩) s = .next { s with blk := b } ∧
        b.RES_S = some (Vector.ofFn fun i : Fin s.p.N => s.blk.limb i ^^^ limbs[i]) ∧
        b.S = s.blk.S ∧ b.RES = s.blk.RES ∧ b.fault = none ∧ b.DONE = true ∧ b.k = s.blk.k + 1) ∧
    (∀ B : StorageValue, B.shape ≠ (s.p.N, s.p.L) → FaultsWith (.xorB B) s .shape 0x09#8)) ∧
  decodeByte 0x09#8 = .ok .xorB

/-- NOT (R83): the complement of every limb within `L` bits; it has no `B` and cannot fault. -/
def Obligations.NotResult : Prop :=
  (∀ s : State, s.CMD_READY = true →
    ∃ b : Block s.p, exec .notS s = .next { s with blk := b } ∧
      b.RES_S = some (Vector.ofFn fun i : Fin s.p.N => ~~~s.blk.limb i) ∧
      b.S = s.blk.S ∧ b.RES = s.blk.RES ∧ b.fault = none ∧ b.DONE = true ∧ b.k = s.blk.k + 1) ∧
  decodeByte 0x0A#8 = .ok .notS

/-- The identity laws (R84), for the storage `x` held in `S`. -/
def Obligations.BitwiseIdentities : Prop :=
  ∀ s : State, s.CMD_READY = true →
    ∃ (x : Vector (BitVec s.p.L) s.p.N), (∀ i : Fin s.p.N, x[i] = s.blk.limb i) ∧
      (∃ b : Block s.p, exec (.andB ⟨s.p.L, List.replicate s.p.N (BitVec.allOnes s.p.L)⟩) s = .next { s with blk := b } ∧
        b.RES_S = some x) ∧
      (∃ b : Block s.p, exec (.orB ⟨s.p.L, List.replicate s.p.N 0#s.p.L⟩) s = .next { s with blk := b } ∧
        b.RES_S = some x) ∧
      (∃ b : Block s.p, exec (.xorB ⟨s.p.L, x.toList⟩) s = .next { s with blk := b } ∧
        b.RES_S = some (Vector.replicate s.p.N 0#s.p.L)) ∧
      (∃ (b c d : Block s.p) (y : Vector (BitVec s.p.L) s.p.N), exec .notS s = .next { s with blk := b } ∧
        b.RES_S = some y ∧ exec (.newl ⟨s.p.L, y.toList⟩) { s with blk := b } = .next { s with blk := c } ∧
        exec .notS { s with blk := c } = .next { s with blk := d } ∧ d.RES_S = some x)

/-! ### The whole machine -/

/-- Which limbs a command accesses (20_memory.md R37): a command that does not fault reads and writes exactly the limbs
of the table, each once; a faulting one accesses none; limbs outside the set written stay. -/
def Obligations.LimbsAccessedPerCommand : Prop :=
  ∀ (s : State) (i : Instr), s.CMD_READY = true →
    ∃ b : Block s.p, exec i s = .next { s with blk := b } ∧
      (b.fault = none → (readsOf b.accesses).Perm (limbsRead s.p i) ∧
        (writesOf b.accesses).Perm (limbsWritten s.p i) ∧
        (∀ j, j ∉ limbsWritten s.p i → b.limb j = s.blk.limb j)) ∧
      (b.fault ≠ none → b.accesses = [] ∧ ∀ j, b.limb j = s.blk.limb j)

/-- Inside a command every read of a limb comes before any write of a limb (00_scope.md R14, 20_memory.md R39;
that the model keeps the accesses of the last command is log 9). -/
def Obligations.ReadsComeBeforeWrites : Prop :=
  ∀ (s : State) (i : Instr), s.CMD_READY = true →
    ∃ (b : Block s.p) (r w : List (Access s.p.L)), exec i s = .next { s with blk := b } ∧
      b.accesses = r ++ w ∧ (∀ a ∈ r, a.isRead = true) ∧ (∀ a ∈ w, a.isRead = false)

/-- Which fault a command takes (60_exceptions.md R89): it faults exactly when a condition on its own fields holds, and
then with the smallest code of those that hold. -/
def Obligations.SmallestFaultCodeIsReported : Prop :=
  ∀ (s : State) (i : Instr), s.CMD_READY = true →
    ∃ b : Block s.p, exec i s = .next { s with blk := b } ∧
      (b.fault = none ↔ ∀ code, ¬commandCause s.p i code) ∧
      (∀ (code : FaultCode) (cmd : Byte), b.fault = some ⟨code, cmd⟩ → cmd = i.opcode.byte ∧ commandCause s.p i code ∧
        ∀ other : FaultCode, commandCause s.p i other → code.num ≤ other.num) ∧
      [FaultCode.illegalCmd, .targetWidth, .zeroWidth, .range, .limbIndex, .shape].map FaultCode.num =
        [1, 2, 3, 4, 5, 6]

/-- A faulting command has no effect but the record (60_exceptions.md R91): it has read no limb, written no limb, and
left the storage, `RES` and `RES_S`. -/
def Obligations.FaultingCommandHasNoOtherEffect : Prop :=
  ∀ (s : State) (i : Instr), s.CMD_READY = true →
    ∃ b : Block s.p, exec i s = .next { s with blk := b } ∧
      (b.fault ≠ none → b.S = s.blk.S ∧ b.RES = s.blk.RES ∧ b.RES_S = s.blk.RES_S ∧ b.accesses = [] ∧ b.DONE = true ∧
        ({ s with blk := b } : State).CMD_READY = false)

/-- The faulted state (60_exceptions.md R93): no command is accepted, a step with a command offered or none coming does
not exist, no step changes a limb but the host's own write of it, and a step that leaves the fault record is a reset. -/
def Obligations.OnlyResetLeavesTheFaultedState : Prop :=
  ∀ (s : State) (r : FaultRecord), s.blk.fault = some r →
    s.blk.FAULT = true ∧ s.CMD_READY = false ∧
    (∀ i, exec i s = .fault (.faultedState r.code r.cmd)) ∧
    (∀ c rest, s.host = .offer c :: rest → step s = .fault (.faultedState r.code r.cmd)) ∧
    (s.host = [] → step s = .fault (.faultedState r.code r.cmd)) ∧
    (∀ t, step s = .next t → ∀ j, (∀ i v rest, s.host = .writeLimb i v :: rest → j ≠ i.val) →
      (t.blk.limb j).toNat = (s.blk.limb j).toNat) ∧
    (∀ t, step s = .next t →
      (∃ rest, s.host = .assertReset :: rest) ∨ (∃ c rest, s.host = .offerThenReset c :: rest) ∨
      (t.blk.fault = some r ∧ t.blk.RES.map BitVec.toNat = s.blk.RES.map BitVec.toNat ∧
        t.blk.RES_S.map (fun v => v.toList.map BitVec.toNat) = s.blk.RES_S.map (fun v => v.toList.map BitVec.toNat)))

/-- Reset (70_reset_and_hazards.md R101), move by move: asserted and released; asserted over a command in flight; asserted
over an illegal byte in flight; asserted while a command is offered and not accepted. The registers have their reset
values and a limb that no command was writing stays. That each limb which ANY command in flight was to write is left old
or new, where R101 says it of a SET over several limbs, is the model's choice (log 12), and so is the move that cuts a
command off (log 10). -/
def Obligations.ResetValuesAndAbandonedCommand : Prop :=
  (∀ (s : State) (rest : List (HostMove s.p)), s.host = .assertReset :: .releaseReset :: rest →
    ∃ b : Block s.p, step s = .next { s with blk := b, RST := true, host := .releaseReset :: rest } ∧
      step { s with blk := b, RST := true, host := .releaseReset :: rest } =
        .next { s with blk := b, RST := false, host := rest } ∧
      b.HoldsResetValues ∧ b.S = s.blk.S ∧
      ({ s with blk := b, RST := true, host := .releaseReset :: rest } : State).CMD_READY = false ∧
      ({ s with blk := b, RST := false, host := rest } : State).CMD_READY = true) ∧
  (∀ (s : State) (c : Command s.p) (rest : List (HostMove s.p)), s.host = .offerThenReset c :: rest →
    ∃ (b : Block s.p) (n : Nat),
      step s = .next { s with blk := b, RST := true, host := rest, abandoned := n } ∧ b.HoldsResetValues ∧
      (∀ i t, s.CMD_READY = true → decode c = .ok i → exec i { s with host := rest } = .next t →
        ∀ j, b.limb j = s.blk.limb j ∨ (j ∈ limbsWritten s.p i ∧ (b.limb j).toNat = (t.blk.limb j).toNat)) ∧
      (s.CMD_READY = true → (∃ e, decode c = .error e) → ∀ j, b.limb j = s.blk.limb j) ∧
      (s.CMD_READY = false → b.S = s.blk.S))

/-- While RST is asserted an offered command waits on the port and nothing changes (the model's choice, log 11); a host
with no move leaves the block idle (log 18); the host's own write changes its limb and nothing else (log 15). -/
def Obligations.WaitingIdleAndHostWrites : Prop :=
  (∀ (s : State) (c : Command s.p) (rest : List (HostMove s.p)), s.host = .offer c :: rest → s.RST = true →
    s.blk.fault = none → step s = .next s) ∧
  (∀ s : State, s.host = [] → s.blk.fault = none → step s = .next s) ∧
  (∀ (s : State) (i : Fin s.p.N) (v : BitVec s.p.L) (rest : List (HostMove s.p)), s.host = .writeLimb i v :: rest →
    ∃ b : Block s.p, step s = .next { s with blk := b, host := rest } ∧ b.limb i = v ∧
      (∀ j, j ≠ i.val → b.limb j = s.blk.limb j) ∧ b = { s.blk with S := b.S })

/-- Commands keep no state (10_state.md R18): what a command does to the storage, RES and RES_S is a function of the
storage and its own operands alone, whatever RES, RES_S, DONE, the command index or the accesses hold. -/
def Obligations.CommandsReadOnlyTheStorage : Prop :=
  ∀ (s : State) (d : Block s.p) (i : Instr), s.CMD_READY = true → d.fault = none → d.S = s.blk.S →
    ∃ b c : Block s.p, exec i s = .next { s with blk := b } ∧
      exec i { s with blk := d } = .next { s with blk := c } ∧
      b.S = c.S ∧ b.fault = c.fault ∧
      (b.RES = c.RES ∨ (b.RES = s.blk.RES ∧ c.RES = d.RES)) ∧
      (b.RES_S = c.RES_S ∨ (b.RES_S = s.blk.RES_S ∧ c.RES_S = d.RES_S))

/-- The build never changes (10_state.md R16). -/
def Obligations.ShapeNeverChanges : Prop :=
  (∀ (i : Instr) (s t : State), exec i s = .next t → t.p = s.p) ∧ (∀ s t : State, step s = .next t → t.p = s.p)

/-- The bit and limb order (20_memory.md R31): bit `j` is bit `j mod L` of limb `j div L`, and has weight `2^j` in
`Sint`, which is the weighted sum of the limbs. -/
def Obligations.BitOrderOfTheStorage : Prop :=
  ∀ (p : Params) (b : Block p),
    b.sint = ∑ i ∈ Finset.range p.N, (b.limb i).toNat * 2 ^ (i * p.L) ∧ b.sint < 2 ^ p.T ∧
    (∀ j, j < p.T → b.sint.testBit j = (b.limb (j / p.L)).getLsbD (j % p.L))

/-- The registers STATUS and FCMD (10_state.md R23, R24): STATUS has its legal values, FCMD the byte of the command
that set FAULT; only fault entry and reset write them. -/
def Obligations.StatusAndFcmdRegisters : Prop :=
  (∀ (p : Params) (b : Block p), b.STATUS.extractLsb' 1 3 = 0#3 ∧ b.FCODE.toNat ≤ 6 ∧
    (b.FAULT = false → b.STATUS = 0x00#8 ∧ b.FCMD = 0x00#8) ∧ (b.FAULT = true ↔ b.fault.isSome = true)) ∧
  State.reset.blk.STATUS = 0x00#8 ∧ State.reset.blk.FCMD = 0x00#8 ∧
  (∀ s t : State, step s = .next t →
    (t.blk.STATUS = s.blk.STATUS ∧ t.blk.FCMD = s.blk.FCMD) ∨
    (s.blk.FAULT = false ∧ t.blk.FAULT = true ∧ ∃ c rest, s.host = .offer c :: rest ∧ t.blk.FCMD = c.CMD) ∨
    (t.blk.STATUS = 0x00#8 ∧ t.blk.FCMD = 0x00#8 ∧
      ((∃ rest, s.host = .assertReset :: rest) ∨ ∃ c rest, s.host = .offerThenReset c :: rest)))

/-- A run of a list of commands (70_reset_and_hazards.md R108, R110): either every command completes without a fault and
the run ends well, or the run stops at the first command that faults, and the commands after it never run. That a
faulting command counts in `k` is not used here. -/
def Obligations.RunEndsWellOrAtTheFirstFault : Prop :=
  ∀ (s : State) (cs : List (Command s.p)), s.CMD_READY = true → s.host = cs.map HostMove.offer →
    (∃ t : State, Sys2Proof.core.run cs.length s = .next t ∧ State.EndsWell t ∧ t.blk.k = s.blk.k + cs.length) ∨
    (∃ (n : Nat) (t : State) (r : FaultRecord), n < cs.length ∧
      Sys2Proof.core.run (n + 1) s = .next t ∧ t.blk.fault = some r ∧ t.host.length + (n + 1) = cs.length ∧
      ∀ m, n + 1 < m → Sys2Proof.core.run m s = .fault (.faultedState r.code r.cmd))

/-- The pseudo-instructions (30_encoding.md R57): their expansions and effects. The width `w` of `[msb:lsb]` is
`msb - lsb + 1`, from 0 on. -/
def Obligations.PseudoInstructionEffects : Prop :=
  (∀ start width tw val n v msb lsb,
    pseudoZero = .newv 0 ∧ pseudoClrf start width = .setU start width 1 0 ∧
    pseudoFillf start width = .setS start width 1 1 ∧ pseudoBit n = .getU n 1 1 ∧ pseudoSetbit n v = .setU n 1 1 v ∧
    ∀ w, lsb + w = msb + 1 →
      pseudoGetU msb lsb tw = .getU lsb w tw ∧ pseudoGetS msb lsb tw = .getS lsb w tw ∧
      pseudoSetU msb lsb tw val = .setU lsb w tw val ∧ pseudoSetS msb lsb tw val = .setS lsb w tw val ∧
      pseudoMask msb lsb = .mask lsb w) ∧
  (∀ s : State, s.CMD_READY = true →
    (∃ b : Block s.p, exec pseudoZero s = .next { s with blk := b } ∧ b.sint = 0) ∧
    (∀ start width, 1 ≤ width → start + width ≤ s.p.T →
      (∃ b : Block s.p, exec (pseudoClrf start width) s = .next { s with blk := b } ∧
        ∀ j, b.bit j = if start ≤ j ∧ j < start + width then false else s.blk.bit j) ∧
      (∃ b : Block s.p, exec (pseudoFillf start width) s = .next { s with blk := b } ∧
        ∀ j, b.bit j = if start ≤ j ∧ j < start + width then true else s.blk.bit j)) ∧
    (∀ n v, n < s.p.T →
      (∃ b : Block s.p, exec (pseudoBit n) s = .next { s with blk := b } ∧
        b.RES = some (BitVec.ofNat s.p.DW (s.blk.bit n).toNat)) ∧
      (∃ b : Block s.p, exec (pseudoSetbit n v) s = .next { s with blk := b } ∧
        ∀ j, b.bit j = if j = n then v.testBit 0 else s.blk.bit j)))

/-- The invariant of `Sys2Proof/Safety.lean` (canonical storage with no limb outside `0 .. N-1`, accesses inside the
storage, a legal fault record of a done command that accessed nothing, reset values held while RST is asserted) is
kept by every step. The model's choices in it: the canonical form of the storage (log 4), that DONE stays 1 in every later
state with a fault record (log 7: DONE is a level), and that the reset values held include an empty access list and
`k = 0` (logs 8, 9). -/
def Obligations.EveryStepKeepsTheInvariant : Prop :=
  ∀ s t : State, s.Inv → step s = .next t → t.Inv

/-- The invariant holds right after reset: in `State.reset`, and on every build over every storage in canonical form
(the contents are the host's, 70_reset_and_hazards.md R102), with RST asserted or released and whatever the host does
next. The canonical form is the model's (log 4), and `State.reset` is of one build (logs 2, 3). -/
def Obligations.ResetMeetsTheInvariant : Prop :=
  State.reset.Inv ∧
  ∀ (p : Params) (S : Memory p.L) (RST : Bool) (host : List (HostMove p)) (n : Nat), S.wf p.N = true →
    State.Inv ⟨p, Block.reset S, RST, host, n⟩

/-- What RST leaves, whatever state it finds (70_reset_and_hazards.md R101): every step that asserts RST leaves the reset
values, the build and CMD_READY 0, its release makes CMD_READY 1, and a SET over several limbs that it cut off leaves each
limb of `f .. l` old or new and every other limb old. -/
def Obligations.ResetLeavesTheStatedValues : Prop :=
  (∀ s t : State, step s = .next t →
    ((∃ rest, s.host = .assertReset :: rest) ∨ ∃ c rest, s.host = .offerThenReset c :: rest) →
    t.RST = true ∧ t.CMD_READY = false ∧ t.p = s.p ∧ t.blk.HoldsResetValues ∧
      ((∃ rest, s.host = .assertReset :: rest) → ∀ j, (t.blk.limb j).toNat = (s.blk.limb j).toNat) ∧
      ∀ u, (∃ rest, t.host = .releaseReset :: rest) → step t = .next u →
        u.blk.HoldsResetValues ∧ u.CMD_READY = true ∧ u.p = s.p) ∧
  (∀ (s : State) (c : Command s.p) (rest : List (HostMove s.p)) (setI : Nat → Nat → Nat → Nat → Instr)
      (start width tw val : Nat), (setI = Instr.setU ∨ setI = Instr.setS) → s.host = .offerThenReset c :: rest →
    s.CMD_READY = true → decode c = .ok (setI start width tw val) → 1 ≤ tw → tw ≤ s.p.DW → 1 ≤ width →
    start + width ≤ s.p.T → start / s.p.L < (start + width - 1) / s.p.L →
    ∃ a b : Block s.p, exec (setI start width tw val) { s with host := rest } = .next { s with blk := a, host := rest } ∧
      step s = .next { s with blk := b, RST := true, host := rest, abandoned := s.abandoned + 1 } ∧
      (∀ j, start / s.p.L ≤ j → j ≤ (start + width - 1) / s.p.L → b.limb j = s.blk.limb j ∨ b.limb j = a.limb j) ∧
      (∀ j, (j < start / s.p.L ∨ (start + width - 1) / s.p.L < j) → b.limb j = s.blk.limb j))

/-- The open orders of a build are not observable (00_scope.md R10, 20_memory.md R33, R41): on two builds that differ in
LIMB_WRITE_ORDER and HOST_BYTE_ORDER alone, every command leaves the same limbs, registers, fault record, DONE and command
index; the recorded accesses are the same but for their order. -/
def Obligations.OpenOrdersAreNotObservable : Prop :=
  ∀ (p : Params) (o h : PlaceOrder) (b : Block p) (i : Instr) (n : Nat), b.fault = none →
    let q : Params := { p with LIMB_WRITE_ORDER := o, HOST_BYTE_ORDER := h }
    ∃ c d : Block p, exec i ⟨p, b, false, [], n⟩ = .next ⟨p, c, false, [], n⟩ ∧
      exec i ⟨q, ⟨b.S, b.RES, b.RES_S, b.fault, b.DONE, b.accesses, b.k⟩, false, [], n⟩ =
        .next ⟨q, ⟨d.S, d.RES, d.RES_S, d.fault, d.DONE, d.accesses, d.k⟩, false, [], n⟩ ∧
      (∀ j, c.limb j = d.limb j) ∧ c.RES = d.RES ∧ c.RES_S = d.RES_S ∧ c.fault = d.fault ∧ c.DONE = d.DONE ∧
      c.k = d.k ∧ c.accesses.Perm d.accesses
end

