-- ==== Sys2Proof/Laws/Memory.lean ====
section
/-! SUPPORT. The storage as data: a read after a write, and the canonical form. -/

namespace Sys2Proof.Machine

variable {L N : Nat}

@[simp] theorem Memory.read_nil (i : Nat) : Memory.read ([] : Memory L) i = Config.unlistedLimb L := rfl

theorem Memory.read_of_not_listed : ∀ (m : Memory L) (i : Nat), (∀ e ∈ m, e.1 ≠ i) →
    m.read i = Config.unlistedLimb L
  | [], _, _ => rfl
  | (j, v) :: m, i, h => by
    have hj : j ≠ i := h (j, v) (by simp)
    simp only [Memory.read, if_neg hj]
    exact Memory.read_of_not_listed m i fun e he => h e (by simp [he])

theorem Memory.not_listed_erase : ∀ (m : Memory L) (i : Nat), ∀ e ∈ m.erase i, e.1 ≠ i
  | [], _ => by simp [Memory.erase]
  | (j, v) :: m, i => by
    have ih := Memory.not_listed_erase m i
    by_cases hj : j = i
    · simpa [Memory.erase, hj] using ih
    · simpa [Memory.erase, hj] using ih

theorem Memory.read_erase_ne : ∀ (m : Memory L) (i j : Nat), j ≠ i → (m.erase i).read j = m.read j
  | [], _, _, _ => rfl
  | (n, v) :: m, i, j, h => by
    have ih := Memory.read_erase_ne m i j h
    by_cases hn : n = i
    · simp [Memory.erase, Memory.read, hn, ih, Ne.symm h]
    · simp [Memory.erase, Memory.read, hn, ih]

theorem Memory.read_insert_same : ∀ (m : Memory L) (i : Nat) (v : BitVec L), (∀ e ∈ m, e.1 ≠ i) →
    (m.insert i v).read i = v
  | [], _, _, _ => by simp [Memory.insert, Memory.read]
  | (j, w) :: m, i, v, h => by
    have hj : j ≠ i := h (j, w) (by simp)
    have ih := Memory.read_insert_same m i v fun e he => h e (by simp [he])
    by_cases hlt : i < j
    · simp [Memory.insert, Memory.read, hlt]
    · simp [Memory.insert, Memory.read, hlt, hj, ih]

theorem Memory.read_insert_ne : ∀ (m : Memory L) (i j : Nat) (v : BitVec L), j ≠ i →
    (m.insert i v).read j = m.read j
  | [], i, j, v, h => by simp [Memory.insert, Memory.read, Ne.symm h]
  | (n, w) :: m, i, j, v, h => by
    have ih := Memory.read_insert_ne m i j v h
    by_cases hlt : i < n
    · simp [Memory.insert, Memory.read, hlt, Ne.symm h]
    · simp [Memory.insert, Memory.read, hlt, ih]

/-- A read after a write: the value written at its own index, the old limb elsewhere (20_memory.md R36). -/
@[simp] theorem Memory.read_write (m : Memory L) (i j : Nat) (v : BitVec L) :
    (m.write i v).read j = if j = i then v else m.read j := by
  unfold Memory.write
  by_cases hj : j = i
  · subst hj
    by_cases hv : v = Config.unlistedLimb L
    · simp [hv, Memory.read_of_not_listed _ _ (Memory.not_listed_erase m j)]
    · simp [hv, Memory.read_insert_same _ _ _ (Memory.not_listed_erase m j)]
  · by_cases hv : v = Config.unlistedLimb L
    · simp [hv, hj, Memory.read_erase_ne m i j hj]
    · simp [hv, hj, Memory.read_insert_ne _ i j v hj, Memory.read_erase_ne m i j hj]

theorem Memory.wfFrom_cons {lo j : Nat} {v : BitVec L} {m : Memory L} :
    Memory.wfFrom N lo ((j, v) :: m) = true ↔
      lo ≤ j ∧ j < N ∧ v ≠ Config.unlistedLimb L ∧ Memory.wfFrom N (j + 1) m = true := by
  simp [Memory.wfFrom, and_assoc]

theorem Memory.wfFrom_mono {lo lo' : Nat} (h : lo' ≤ lo) : ∀ {m : Memory L},
    Memory.wfFrom N lo m = true → Memory.wfFrom N lo' m = true
  | [], _ => rfl
  | (j, v) :: m, hm => by
    rw [Memory.wfFrom_cons] at hm ⊢
    exact ⟨h.trans hm.1, hm.2⟩

theorem Memory.wfFrom_erase (i : Nat) : ∀ {lo : Nat} {m : Memory L},
    Memory.wfFrom N lo m = true → Memory.wfFrom N lo (m.erase i) = true
  | _, [], _ => rfl
  | lo, (j, v) :: m, h => by
    rw [Memory.wfFrom_cons] at h
    have ih := Memory.wfFrom_erase i h.2.2.2
    by_cases hj : j = i
    · simpa [Memory.erase, hj] using Memory.wfFrom_mono (by omega) (hj ▸ ih)
    · simp only [Memory.erase, if_neg hj, Memory.wfFrom_cons]
      exact ⟨h.1, h.2.1, h.2.2.1, ih⟩

theorem Memory.wfFrom_insert {i : Nat} {v : BitVec L} (hi : i < N) (hv : v ≠ Config.unlistedLimb L) :
    ∀ {lo : Nat} {m : Memory L}, lo ≤ i → (∀ e ∈ m, e.1 ≠ i) → Memory.wfFrom N lo m = true →
      Memory.wfFrom N lo (m.insert i v) = true
  | lo, [], hlo, _, _ => by simp [Memory.insert, Memory.wfFrom, hlo, hi, hv]
  | lo, (j, w) :: m, hlo, hm, h => by
    have hj : j ≠ i := hm (j, w) (by simp)
    rw [Memory.wfFrom_cons] at h
    by_cases hlt : i < j
    · simp only [Memory.insert, if_pos hlt, Memory.wfFrom_cons]
      exact ⟨hlo, hi, hv, by omega, h.2.1, h.2.2.1, h.2.2.2⟩
    · simp only [Memory.insert, if_neg hlt, Memory.wfFrom_cons]
      exact ⟨h.1, h.2.1, h.2.2.1,
        Memory.wfFrom_insert hi hv (by omega) (fun e he => hm e (by simp [he])) h.2.2.2⟩

/-- Every write of a limb of the storage keeps the canonical form. -/
theorem Memory.wf_write {m : Memory L} {i : Nat} (v : BitVec L) (hi : i < N) (h : m.wf N = true) :
    (m.write i v).wf N = true := by
  unfold Memory.write Memory.wf at *
  have he := Memory.wfFrom_erase i h
  by_cases hv : v = Config.unlistedLimb L
  · simpa [hv] using he
  · simpa [hv] using Memory.wfFrom_insert hi hv (Nat.zero_le i) (Memory.not_listed_erase m i) he

theorem Memory.wf_nil : Memory.wf N ([] : Memory L) = true := rfl

theorem Memory.read_below : ∀ {lo : Nat} {m : Memory L} (i : Nat), Memory.wfFrom N lo m = true → i < lo →
    m.read i = Config.unlistedLimb L
  | _, [], _, _, _ => rfl
  | lo, (j, v) :: m, i, h, hi => by
    rw [Memory.wfFrom_cons] at h
    have hj : j ≠ i := by omega
    simp only [Memory.read, if_neg hj]
    exact Memory.read_below i h.2.2.2 (by omega)

theorem Memory.ext_of_wfFrom : ∀ {lo lo' : Nat} {m m' : Memory L}, Memory.wfFrom N lo m = true →
    Memory.wfFrom N lo' m' = true → (∀ i, m.read i = m'.read i) → m = m'
  | _, _, [], [], _, _, _ => rfl
  | _, _, [], (j, v) :: m', _, h', he => by
    rw [Memory.wfFrom_cons] at h'
    exact absurd (by simpa [Memory.read] using (he j).symm) h'.2.2.1
  | _, _, (j, v) :: m, [], h, _, he => by
    rw [Memory.wfFrom_cons] at h
    exact absurd (by simpa [Memory.read] using he j) h.2.2.1
  | _, _, (j, v) :: m, (j', v') :: m', h, h', he => by
    rw [Memory.wfFrom_cons] at h h'
    have hjj : j = j' := by
      rcases Nat.lt_trichotomy j j' with hlt | heq | hgt
      · have := he j
        rw [Memory.read_below j (lo := j') (m := (j', v') :: m') (N := N)
          (by rw [Memory.wfFrom_cons]; exact ⟨le_refl _, h'.2⟩) hlt] at this
        exact absurd (by simpa [Memory.read] using this) h.2.2.1
      · exact heq
      · have := he j'
        rw [Memory.read_below j' (lo := j) (m := (j, v) :: m) (N := N)
          (by rw [Memory.wfFrom_cons]; exact ⟨le_refl _, h.2⟩) hgt] at this
        exact absurd (by simpa [Memory.read] using this.symm) h'.2.2.1
    subst hjj
    have hv : v = v' := by simpa [Memory.read] using he j
    have ht : m = m' := Memory.ext_of_wfFrom h.2.2.2 h'.2.2.2 fun i => by
      by_cases hi : j = i
      · subst hi
        rw [Memory.read_below j h.2.2.2 (by omega), Memory.read_below j h'.2.2.2 (by omega)]
      · simpa [Memory.read, hi] using he i
    rw [hv, ht]

/-- Two storages in canonical form that read alike are the same data. -/
theorem Memory.ext_of_wf {m m' : Memory L} (h : m.wf N = true) (h' : m'.wf N = true)
    (he : ∀ i, m.read i = m'.read i) : m = m' :=
  Memory.ext_of_wfFrom h h' he

/-- A limb past the end of a storage in canonical form is not listed. -/
theorem Memory.read_past : ∀ {lo : Nat} {m : Memory L} {i : Nat}, Memory.wfFrom N lo m = true → N ≤ i →
    m.read i = Config.unlistedLimb L
  | _, [], _, _, _ => rfl
  | lo, (j, v) :: m, i, h, hi => by
    rw [Memory.wfFrom_cons] at h
    have hj : j ≠ i := by omega
    simp only [Memory.read, if_neg hj]
    exact Memory.read_past h.2.2.2 hi

end Sys2Proof.Machine
end

