-- ==== Sys2Proof/Laws/State.lean ====
section
/-! SUPPORT. What each named update does to each field, so that no proof unfolds an update. -/

namespace Sys2Proof.Machine

variable {p : Params} (b : Block p)

/-! ### Acceptance and completion -/

@[simp] theorem Block.accept_S : b.accept.S = b.S := rfl
@[simp] theorem Block.accept_RES : b.accept.RES = b.RES := rfl
@[simp] theorem Block.accept_RES_S : b.accept.RES_S = b.RES_S := rfl
@[simp] theorem Block.accept_fault : b.accept.fault = b.fault := rfl
@[simp] theorem Block.accept_DONE : b.accept.DONE = false := rfl
@[simp] theorem Block.accept_accesses : b.accept.accesses = [] := rfl
@[simp] theorem Block.accept_k : b.accept.k = b.k := rfl
@[simp] theorem Block.accept_limb (i : Nat) : b.accept.limb i = b.limb i := rfl
@[simp] theorem Block.accept_bit (j : Nat) : b.accept.bit j = b.bit j := rfl

@[simp] theorem Block.complete_S : b.complete.S = b.S := rfl
@[simp] theorem Block.complete_RES : b.complete.RES = b.RES := rfl
@[simp] theorem Block.complete_RES_S : b.complete.RES_S = b.RES_S := rfl
@[simp] theorem Block.complete_fault : b.complete.fault = b.fault := rfl
@[simp] theorem Block.complete_DONE : b.complete.DONE = true := rfl
@[simp] theorem Block.complete_accesses : b.complete.accesses = b.accesses := rfl
@[simp] theorem Block.complete_k : b.complete.k = b.k + 1 := rfl
@[simp] theorem Block.complete_limb (i : Nat) : b.complete.limb i = b.limb i := rfl
@[simp] theorem Block.complete_bit (j : Nat) : b.complete.bit j = b.bit j := rfl

/-! ### Result registers -/

@[simp] theorem Block.writeRES_S_field {n : Nat} (v : BitVec n) : (b.writeRES v).S = b.S := rfl
@[simp] theorem Block.writeRES_RES {n : Nat} (v : BitVec n) : (b.writeRES v).RES = some (v.setWidth p.DW) := rfl
@[simp] theorem Block.writeRES_RES_S {n : Nat} (v : BitVec n) : (b.writeRES v).RES_S = b.RES_S := rfl
@[simp] theorem Block.writeRES_fault {n : Nat} (v : BitVec n) : (b.writeRES v).fault = b.fault := rfl
@[simp] theorem Block.writeRES_DONE {n : Nat} (v : BitVec n) : (b.writeRES v).DONE = b.DONE := rfl
@[simp] theorem Block.writeRES_accesses {n : Nat} (v : BitVec n) : (b.writeRES v).accesses = b.accesses := rfl
@[simp] theorem Block.writeRES_k {n : Nat} (v : BitVec n) : (b.writeRES v).k = b.k := rfl
@[simp] theorem Block.writeRES_limb {n : Nat} (v : BitVec n) (i : Nat) : (b.writeRES v).limb i = b.limb i := rfl
@[simp] theorem Block.writeRES_bit {n : Nat} (v : BitVec n) (j : Nat) : (b.writeRES v).bit j = b.bit j := rfl

@[simp] theorem Block.writeRES_S_S (f : Nat → BitVec p.L) : (b.writeRES_S f).S = b.S := rfl
@[simp] theorem Block.writeRES_S_RES (f : Nat → BitVec p.L) : (b.writeRES_S f).RES = b.RES := rfl
@[simp] theorem Block.writeRES_S_RES_S (f : Nat → BitVec p.L) :
    (b.writeRES_S f).RES_S = some (Vector.ofFn fun i : Fin p.N => f i) := rfl
@[simp] theorem Block.writeRES_S_fault (f : Nat → BitVec p.L) : (b.writeRES_S f).fault = b.fault := rfl
@[simp] theorem Block.writeRES_S_DONE (f : Nat → BitVec p.L) : (b.writeRES_S f).DONE = b.DONE := rfl
@[simp] theorem Block.writeRES_S_accesses (f : Nat → BitVec p.L) : (b.writeRES_S f).accesses = b.accesses := rfl
@[simp] theorem Block.writeRES_S_k (f : Nat → BitVec p.L) : (b.writeRES_S f).k = b.k := rfl
@[simp] theorem Block.writeRES_S_limb (f : Nat → BitVec p.L) (i : Nat) : (b.writeRES_S f).limb i = b.limb i := rfl
@[simp] theorem Block.writeRES_S_bit (f : Nat → BitVec p.L) (j : Nat) : (b.writeRES_S f).bit j = b.bit j := rfl

/-! ### Fault entry and reset -/

@[simp] theorem Block.takeFault_S (c : FaultCode) (d : Byte) : (b.takeFault c d).S = b.S := rfl
@[simp] theorem Block.takeFault_RES (c : FaultCode) (d : Byte) : (b.takeFault c d).RES = b.RES := rfl
@[simp] theorem Block.takeFault_RES_S (c : FaultCode) (d : Byte) : (b.takeFault c d).RES_S = b.RES_S := rfl
@[simp] theorem Block.takeFault_fault (c : FaultCode) (d : Byte) : (b.takeFault c d).fault = some ⟨c, d⟩ := rfl
@[simp] theorem Block.takeFault_DONE (c : FaultCode) (d : Byte) : (b.takeFault c d).DONE = true := rfl
@[simp] theorem Block.takeFault_accesses (c : FaultCode) (d : Byte) : (b.takeFault c d).accesses = [] := rfl
@[simp] theorem Block.takeFault_k (c : FaultCode) (d : Byte) : (b.takeFault c d).k = b.k + 1 := rfl
@[simp] theorem Block.takeFault_STATUS (c : FaultCode) (d : Byte) : (b.takeFault c d).STATUS = statusWord c := rfl
@[simp] theorem Block.takeFault_FCMD (c : FaultCode) (d : Byte) : (b.takeFault c d).FCMD = d := rfl

@[simp] theorem Block.reset_S (S : Memory p.L) : (Block.reset (p := p) S).S = S := rfl
@[simp] theorem Block.reset_RES (S : Memory p.L) : (Block.reset (p := p) S).RES = none := rfl
@[simp] theorem Block.reset_RES_S (S : Memory p.L) : (Block.reset (p := p) S).RES_S = none := rfl
@[simp] theorem Block.reset_fault (S : Memory p.L) : (Block.reset (p := p) S).fault = none := rfl
@[simp] theorem Block.reset_DONE (S : Memory p.L) : (Block.reset (p := p) S).DONE = false := rfl
@[simp] theorem Block.reset_accesses (S : Memory p.L) : (Block.reset (p := p) S).accesses = [] := rfl
@[simp] theorem Block.reset_k (S : Memory p.L) : (Block.reset (p := p) S).k = 0 := rfl

variable (s : State)

@[simp] theorem State.takeFault_blk (c : FaultCode) (d : Byte) : (s.takeFault c d).blk = s.blk.takeFault c d := rfl
@[simp] theorem State.takeFault_RST (c : FaultCode) (d : Byte) : (s.takeFault c d).RST = s.RST := rfl
@[simp] theorem State.takeFault_host (c : FaultCode) (d : Byte) : (s.takeFault c d).host = s.host := rfl
@[simp] theorem State.takeFault_abandoned (c : FaultCode) (d : Byte) : (s.takeFault c d).abandoned = s.abandoned := rfl
@[simp] theorem State.assertReset_blk : s.assertReset.blk = Block.reset s.blk.S := rfl
@[simp] theorem State.assertReset_RST : s.assertReset.RST = true := rfl
@[simp] theorem State.assertReset_host : s.assertReset.host = s.host := rfl
@[simp] theorem State.assertReset_abandoned : s.assertReset.abandoned = s.abandoned := rfl
@[simp] theorem State.releaseReset_blk : s.releaseReset.blk = s.blk := rfl
@[simp] theorem State.releaseReset_RST : s.releaseReset.RST = false := rfl
@[simp] theorem State.releaseReset_host : s.releaseReset.host = s.host := rfl
@[simp] theorem State.releaseReset_abandoned : s.releaseReset.abandoned = s.abandoned := rfl
@[simp] theorem hostWrite_RST (i : Fin s.p.N) (v : BitVec s.p.L) : (hostWrite s i v).RST = s.RST := rfl
@[simp] theorem hostWrite_S (i : Fin s.p.N) (v : BitVec s.p.L) : (hostWrite s i v).blk.S = s.blk.S.write i v := rfl
@[simp] theorem offerNext_host (c : Command s.p) : (s.offerNext c).host = .offer c :: s.host := rfl
@[simp] theorem offerNext_blk (c : Command s.p) : (s.offerNext c).blk = s.blk := rfl

end Sys2Proof.Machine
end

