-- ==== Sys2Proof/Laws/Ops.lean ====
section
/-! SUPPORT. What the operations over the storage port do, and what the template of a command can do. -/

namespace Sys2Proof.Machine

variable {p : Params}

/-! ### Reads and writes of a run of limbs -/

@[simp] theorem Block.memRead_limb (b : Block p) (i j : Nat) : (b.memRead i).limb j = b.limb j := rfl

@[simp] theorem Block.memWrite_limb (b : Block p) (i j : Nat) (v : BitVec p.L) :
    (b.memWrite i v).limb j = if j = i then v else b.limb j := by
  simp [Block.limb, Block.memWrite]

/-- The reads of a run of limbs change nothing but the port: each limb is read once, in ascending order. -/
theorem Block.memReads_eq (b : Block p) (i n : Nat) :
    b.memReads i n =
      { b with accesses := b.accesses ++ (List.range' i n).map fun j => .read j (b.limb j) } := by
  induction n generalizing b i with
  | zero => simp [Block.memReads]
  | succ n ih =>
    rw [Block.memReads, ih]
    simp [Block.memRead, List.range'_succ, Block.limb]

@[simp] theorem Block.memReads_S (b : Block p) (i n : Nat) : (b.memReads i n).S = b.S := by
  rw [Block.memReads_eq]
@[simp] theorem Block.memReads_RES (b : Block p) (i n : Nat) : (b.memReads i n).RES = b.RES := by
  rw [Block.memReads_eq]
@[simp] theorem Block.memReads_RES_S (b : Block p) (i n : Nat) : (b.memReads i n).RES_S = b.RES_S := by
  rw [Block.memReads_eq]
@[simp] theorem Block.memReads_fault (b : Block p) (i n : Nat) : (b.memReads i n).fault = b.fault := by
  rw [Block.memReads_eq]
@[simp] theorem Block.memReads_k (b : Block p) (i n : Nat) : (b.memReads i n).k = b.k := by
  rw [Block.memReads_eq]
@[simp] theorem Block.memReads_limb (b : Block p) (i n j : Nat) : (b.memReads i n).limb j = b.limb j := by
  simp [Block.limb]
@[simp] theorem Block.memReads_accesses (b : Block p) (i n : Nat) :
    (b.memReads i n).accesses = b.accesses ++ (List.range' i n).map fun j => .read j (b.limb j) := by
  rw [Block.memReads_eq]

/-- Everything the writes of a list of limbs leave alone, and what they put on the port: each limb is
written once for each time it is listed, in the order of the list. -/
theorem Block.memWrites_eq (b : Block p) (val : Nat → BitVec p.L) (is : List Nat) :
    b.memWrites val is =
      { b with S := (b.memWrites val is).S
               accesses := b.accesses ++ is.map fun j => .write j (val j) } := by
  induction is generalizing b with
  | nil => simp [Block.memWrites]
  | cons i is ih =>
    rw [Block.memWrites, ih]
    simp [Block.memWrite]

@[simp] theorem Block.memWrites_RES (b : Block p) (val : Nat → BitVec p.L) (is : List Nat) :
    (b.memWrites val is).RES = b.RES := by rw [Block.memWrites_eq]
@[simp] theorem Block.memWrites_RES_S (b : Block p) (val : Nat → BitVec p.L) (is : List Nat) :
    (b.memWrites val is).RES_S = b.RES_S := by rw [Block.memWrites_eq]
@[simp] theorem Block.memWrites_fault (b : Block p) (val : Nat → BitVec p.L) (is : List Nat) :
    (b.memWrites val is).fault = b.fault := by rw [Block.memWrites_eq]
@[simp] theorem Block.memWrites_k (b : Block p) (val : Nat → BitVec p.L) (is : List Nat) :
    (b.memWrites val is).k = b.k := by rw [Block.memWrites_eq]
@[simp] theorem Block.memWrites_accesses (b : Block p) (val : Nat → BitVec p.L) (is : List Nat) :
    (b.memWrites val is).accesses = b.accesses ++ is.map fun j => .write j (val j) := by
  rw [Block.memWrites_eq]

/-- The limbs after the writes of a list of limbs: those listed have their new values, every other limb its old one,
whatever the order of the list. -/
@[simp] theorem Block.memWrites_limb (b : Block p) (val : Nat → BitVec p.L) (is : List Nat) (j : Nat) :
    (b.memWrites val is).limb j = if j ∈ is then val j else b.limb j := by
  induction is generalizing b with
  | nil => simp [Block.memWrites]
  | cons i is ih =>
    rw [Block.memWrites, ih, Block.memWrite_limb]
    by_cases hj : j = i
    · subst hj; simp
    · simp [hj]

theorem Block.memWrite_wf {b : Block p} {i : Nat} (v : BitVec p.L) (hi : i < p.N) (h : b.S.wf p.N = true) :
    (b.memWrite i v).S.wf p.N = true := Memory.wf_write v hi h

/-- The writes of limbs of the storage keep its canonical form. -/
theorem Block.memWrites_wf {b : Block p} (val : Nat → BitVec p.L) {is : List Nat} (hin : ∀ i ∈ is, i < p.N)
    (h : b.S.wf p.N = true) : (b.memWrites val is).S.wf p.N = true := by
  induction is generalizing b with
  | nil => simpa [Block.memWrites] using h
  | cons i is ih =>
    exact ih (fun j hj => hin j (List.mem_cons_of_mem _ hj)) (Block.memWrite_wf _ (hin i List.mem_cons_self) h)

/-! ### The open orders of a build (00_scope.md R10) -/

/-- An order of a run of places is a rearrangement of the run: every place stands in it once. -/
theorem placesInOrder_perm (o : PlaceOrder) (i n : Nat) : (placesInOrder o i n).Perm (List.range' i n) := by
  cases o with
  | ascending => exact List.Perm.refl _
  | descending => exact List.reverse_perm _
  | listed orders =>
    show ((orders.find? fun l => l.isPerm (List.range' i n)).getD (List.range' i n)).Perm _
    cases hf : orders.find? fun l => l.isPerm (List.range' i n) with
    | none => exact List.Perm.refl _
    | some l => exact List.isPerm_iff.mp (by simpa using List.find?_some hf)

@[simp] theorem mem_placesInOrder {o : PlaceOrder} {i n j : Nat} :
    j ∈ placesInOrder o i n ↔ i ≤ j ∧ j < i + n := by
  rw [(placesInOrder_perm o i n).mem_iff, List.mem_range'_1]

/-! ### The template of a command -/

theorem State.ready_iff (s : State) : s.CMD_READY = true ↔ s.RST = false ∧ s.blk.fault = none := by
  simp [State.CMD_READY]

/-- A command that is accepted and passes its checks runs its body and completes. -/
theorem State.command_ok {s : State} (op : Opcode) {check : Option FaultCode} (body : Block s.p → Block s.p)
    (hr : s.CMD_READY = true) (hc : check = none) :
    s.command op check body = .next { s with blk := (body s.blk.accept).complete } := by
  obtain ⟨h1, h2⟩ := s.ready_iff.mp hr
  simp [State.command, h1, h2, hc]

/-- A command that is accepted and fails a check takes the fault, and does nothing else. -/
theorem State.command_fault {s : State} (op : Opcode) {check : Option FaultCode} {code : FaultCode}
    (body : Block s.p → Block s.p) (hr : s.CMD_READY = true) (hc : check = some code) :
    s.command op check body = .next (s.takeFault code op.byte) := by
  obtain ⟨h1, h2⟩ := s.ready_iff.mp hr
  simp [State.command, h1, h2, hc]

/-- In the faulted state a command has no step. -/
theorem State.command_faulted {s : State} (op : Opcode) (check : Option FaultCode) (body : Block s.p → Block s.p)
    {r : FaultRecord} (h : s.blk.fault = some r) :
    s.command op check body = .fault (.faultedState r.code r.cmd) := by
  simp [State.command, h]

/-- Everything the template can do when it answers a next state. -/
theorem State.command_next {s t : State} {op : Opcode} {check : Option FaultCode} {body : Block s.p → Block s.p}
    (h : s.command op check body = .next t) :
    s.blk.fault = none ∧
      ((s.RST = true ∧ t = s) ∨
       (s.RST = false ∧ ∃ code, check = some code ∧ t = s.takeFault code op.byte) ∨
       (s.RST = false ∧ check = none ∧ t = { s with blk := (body s.blk.accept).complete })) := by
  unfold State.command at h
  split at h
  · cases h
  · refine ⟨‹_›, ?_⟩
    split at h
    · rename_i hr
      cases h
      exact .inl ⟨hr, rfl⟩
    · rename_i hr
      have hr : s.RST = false := by simpa using hr
      split at h
      · cases h; exact .inr (.inl ⟨hr, _, rfl, rfl⟩)
      · cases h; exact .inr (.inr ⟨hr, rfl, rfl⟩)

/-- The storage right after reset is in canonical form. -/
theorem State.reset_wf : State.reset.blk.S.wf State.reset.p.N = true := Memory.wf_nil

end Sys2Proof.Machine
end

