-- ==== Sys2Proof/Laws/BitRange.lean ====
section
/-! SUPPORT. The bit-range engine bit by bit: the masks and the range decomposition (41_bitrange.md R64),
extraction (R65) and insertion (R69) as bits of the storage. -/

namespace Sys2Proof.Machine

variable {p : Params}

/-! ### Bits of the storage -/

theorem Block.sintTo_lt (b : Block p) (n : Nat) : b.sintTo n < 2 ^ (n * p.L) := by
  induction n with
  | zero => simp [Block.sintTo]
  | succ n ih =>
    have hl := (b.limb n).isLt
    have : (b.limb n).toNat * 2 ^ (n * p.L) ≤ (2 ^ p.L - 1) * 2 ^ (n * p.L) :=
      Nat.mul_le_mul_right _ (by omega)
    rw [Block.sintTo, Nat.succ_mul, Nat.add_comm (n * p.L), Nat.pow_add]
    rw [Nat.sub_mul, one_mul] at this
    have hpos : 2 ^ (n * p.L) ≤ 2 ^ p.L * 2 ^ (n * p.L) := Nat.le_mul_of_pos_left _ (by positivity)
    omega

theorem Block.sintTo_testBit (b : Block p) (n j : Nat) :
    (b.sintTo n).testBit j = (decide (j < n * p.L) && b.bit j) := by
  induction n with
  | zero => simp [Block.sintTo]
  | succ n ih =>
    have hL := p.L_pos
    rw [Block.sintTo, Nat.add_comm, Nat.mul_comm, Nat.testBit_two_pow_mul_add _ (b.sintTo_lt n), ih]
    by_cases hj : j < n * p.L
    · have : j < (n + 1) * p.L := by rw [Nat.succ_mul]; omega
      simp [hj, this]
    · simp only [hj, if_false]
      by_cases hj2 : j < (n + 1) * p.L
      · rw [Nat.succ_mul] at hj2
        have hdiv : j / p.L = n := by
          rw [Nat.div_eq_iff hL, Nat.mul_comm]; rw [Nat.mul_comm] at hj hj2; omega
        have hmod : j % p.L = j - n * p.L := by
          rw [Nat.mod_eq_sub_mul_div, hdiv, Nat.mul_comm]
        have : j < (n + 1) * p.L := by rw [Nat.succ_mul]; omega
        simp [this, Block.bit, hdiv, hmod, BitVec.getLsbD]
      · rw [Nat.succ_mul] at hj2
        have h1 : (b.limb n).toNat < 2 ^ (j - n * p.L) :=
          lt_of_lt_of_le (b.limb n).isLt (Nat.pow_le_pow_right (by norm_num) (by omega))
        have h2 : ¬ j < (n + 1) * p.L := by rw [Nat.succ_mul]; omega
        simp [Nat.testBit_lt_two_pow h1, h2]

/-- Bit `j` of `Sint` is bit `j` of the storage, below `T`. -/
theorem Block.sint_testBit (b : Block p) (j : Nat) : b.sint.testBit j = (decide (j < p.T) && b.bit j) :=
  b.sintTo_testBit p.N j

theorem Block.sint_lt (b : Block p) : b.sint < 2 ^ p.T := b.sintTo_lt p.N

/-- Blocks of one build with the same limbs hold the same integer. -/
theorem Block.sint_congr {b c : Block p} (h : ∀ i < p.N, b.limb i = c.limb i) : b.sint = c.sint := by
  have : ∀ n ≤ p.N, b.sintTo n = c.sintTo n := by
    intro n
    induction n with
    | zero => intro _; rfl
    | succ n ih => intro hn; rw [Block.sintTo, Block.sintTo, ih (by omega), h n (by omega)]
  exact this p.N (le_refl _)

@[simp] theorem Block.accept_sint (b : Block p) : b.accept.sint = b.sint := Block.sint_congr fun _ _ => rfl
@[simp] theorem Block.complete_sint (b : Block p) : b.complete.sint = b.sint := Block.sint_congr fun _ _ => rfl

/-- A bit at position `i*L + m`, `m < L`, is bit `m` of limb `i`. -/
theorem Block.bit_of_limb (b : Block p) {i m : Nat} (hm : m < p.L) :
    b.bit (i * p.L + m) = (b.limb i).getLsbD m := by
  have hL := p.L_pos
  have h1 : (i * p.L + m) / p.L = i := by
    rw [Nat.mul_comm, Nat.mul_add_div hL, Nat.div_eq_of_lt hm, Nat.add_zero]
  have h2 : (i * p.L + m) % p.L = m := by rw [Nat.mul_comm, Nat.mul_add_mod, Nat.mod_eq_of_lt hm]
  simp [Block.bit, h1, h2]

/-- Two blocks of one build with the same bits have the same limbs. -/
theorem Block.limb_ext {b c : Block p} {i : Nat} (h : ∀ m < p.L, b.bit (i * p.L + m) = c.bit (i * p.L + m)) :
    b.limb i = c.limb i := by
  apply BitVec.eq_of_getLsbD_eq
  intro m hm
  rw [← Block.bit_of_limb b hm, ← Block.bit_of_limb c hm, h m hm]

/-! ### Masks -/

theorem ones_testBit (w j : Nat) : (ones w).testBit j = decide (j < w) := by
  simp [ones, Nat.testBit_two_pow_sub_one]

theorem fieldmask_testBit (s w j : Nat) : (fieldmask s w).testBit j = decide (s ≤ j ∧ j < s + w) := by
  simp only [fieldmask, Nat.testBit_shiftLeft, ones_testBit, ← Bool.decide_and]
  apply decide_eq_decide.mpr; omega

/-- The limb of an integer, bit by bit. -/
theorem limbOfInt_getLsbD (x i m : Nat) : (limbOfInt p x i).getLsbD m = (decide (m < p.L) && x.testBit (i * p.L + m)) := by
  simp [limbOfInt, BitVec.getLsbD_ofNat, Nat.testBit_shiftRight]

/-- The local mask of a limb that the range meets: ones at the limb's bits inside the range (R64). -/
theorem localMask_getLsbD {s w i m : Nat} (h1 : i * p.L < s + w) (h2 : s < (i + 1) * p.L) (hw : 1 ≤ w) :
    (localMask p s w i).getLsbD m = decide (m < p.L ∧ s ≤ i * p.L + m ∧ i * p.L + m < s + w) := by
  have hL := p.L_pos
  simp only [localMask, BitVec.getLsbD_ofNat, Nat.testBit_shiftLeft, ones_testBit, loBit, hiBit,
    ← Bool.decide_and]
  rw [Nat.succ_mul] at *
  apply decide_eq_decide.mpr; omega

/-- A limb from the first to the last of a range meets the range. -/
theorem limb_meets {s w n : Nat} (hw : 1 ≤ w) (hn : n < limbSpan p s w) :
    (firstLimb p s + n) * p.L < s + w ∧ s < (firstLimb p s + n + 1) * p.L := by
  have hL := p.L_pos
  unfold limbSpan lastLimb firstLimb at *
  have hle : s / p.L ≤ (s + w - 1) / p.L := Nat.div_le_div_right (by omega)
  constructor
  · have : s / p.L + n ≤ (s + w - 1) / p.L := by omega
    have := (Nat.le_div_iff_mul_le hL).mp this
    omega
  · have h3 : s < (s / p.L + 1) * p.L := by
      rw [Nat.mul_comm]; exact Nat.lt_mul_div_succ s hL
    calc s < (s / p.L + 1) * p.L := h3
      _ ≤ (s / p.L + n + 1) * p.L := Nat.mul_le_mul_right _ (by omega)

/-- The limbs of a valid range are limbs of the storage. -/
theorem limbSpan_le {s w : Nat} (hw : 1 ≤ w) (h : s + w ≤ p.T) : firstLimb p s + limbSpan p s w ≤ p.N := by
  have hL := p.L_pos
  unfold limbSpan lastLimb firstLimb Params.T at *
  have hle : s / p.L ≤ (s + w - 1) / p.L := Nat.div_le_div_right (by omega)
  have : (s + w - 1) / p.L < p.N := by
    rw [Nat.div_lt_iff_lt_mul hL]; omega
  omega

/-! ### Extraction -/

theorem fieldPart_testBit (b : Block p) {s w i j : Nat} (h1 : i * p.L < s + w) (h2 : s < (i + 1) * p.L)
    (hw : 1 ≤ w) : (fieldPart b s w i).testBit j =
      (decide (j < w ∧ i * p.L ≤ s + j ∧ s + j < (i + 1) * p.L) && b.bit (s + j)) := by
  have hL := p.L_pos
  by_cases hj : j < w ∧ i * p.L ≤ s + j ∧ s + j < (i + 1) * p.L
  · obtain ⟨m, hm⟩ : ∃ m, s + j = i * p.L + m := ⟨s + j - i * p.L, by omega⟩
    have hmL : m < p.L := by rw [Nat.succ_mul] at hj; omega
    have hpos : offBit p s i ≤ j ∧ loBit p s i + (j - offBit p s i) = m := by
      unfold offBit loBit; rw [Nat.succ_mul] at *; omega
    have hmask : (localMask p s w i).getLsbD m = true := by
      rw [localMask_getLsbD h1 h2 hw]; simp; omega
    rw [hm, Block.bit_of_limb b hmL]
    have hr : (i * p.L ≤ i * p.L + m ∧ i * p.L + m < (i + 1) * p.L) := by rw [← hm]; exact hj.2
    simp only [fieldPart, Nat.testBit_shiftLeft, Nat.testBit_shiftRight, Nat.testBit_and, hpos.2]
    simp only [BitVec.getLsbD] at hmask ⊢
    simp [hpos.1, hmask, hj.1, hr.2]
  · have : (fieldPart b s w i).testBit j = false := by
      simp only [fieldPart, Nat.testBit_shiftLeft, Nat.testBit_shiftRight, Nat.testBit_and]
      have hmask := localMask_getLsbD (m := loBit p s i + (j - offBit p s i)) h1 h2 hw
      simp only [BitVec.getLsbD] at hmask
      rw [hmask]
      by_cases ho : offBit p s i ≤ j
      · have : ¬(loBit p s i + (j - offBit p s i) < p.L ∧ s ≤ i * p.L + (loBit p s i + (j - offBit p s i)) ∧
            i * p.L + (loBit p s i + (j - offBit p s i)) < s + w) := by
          unfold offBit loBit at *; rw [Nat.succ_mul] at *; omega
        simp [this]
      · simp [ho]
    rw [this]; simp [hj]

theorem accumulate_testBit (b : Block p) {s w : Nat} (hw : 1 ≤ w) (n j : Nat) (hn : n ≤ limbSpan p s w) :
    (accumulate b s w n).testBit j =
      (decide (j < w ∧ s + j < (firstLimb p s + n) * p.L) && b.bit (s + j)) := by
  induction n with
  | zero =>
    have h : s / p.L * p.L ≤ s := Nat.div_mul_le_self s p.L
    have : ¬(j < w ∧ s + j < (firstLimb p s + 0) * p.L) := by
      unfold firstLimb; rw [Nat.add_zero]; omega
    simp only [accumulate, this]; simp
  | succ n ih =>
    obtain ⟨h1, h2⟩ := limb_meets (p := p) hw (Nat.lt_of_succ_le hn)
    rw [accumulate, Nat.testBit_or, ih (by omega), fieldPart_testBit b h1 h2 hw, ← Bool.and_or_distrib_right,
      ← Bool.decide_or]
    congr 1
    apply decide_eq_decide.mpr
    rw [← Nat.add_assoc, Nat.succ_mul (firstLimb p s + n)]
    omega

/-- The bits of the field extracted are the bits of the storage from `s` on (R65). -/
theorem extract_getLsbD (b : Block p) {s w : Nat} (hw : 1 ≤ w) (j : Nat) :
    (extract b s w).getLsbD j = (decide (j < w) && b.bit (s + j)) := by
  have hL := p.L_pos
  rw [extract, BitVec.getLsbD_ofNat, accumulate_testBit b hw _ _ (le_refl _)]
  by_cases hj : j < w
  · have hle : s / p.L ≤ (s + w - 1) / p.L := Nat.div_le_div_right (by omega)
    have h3 : s + w - 1 < ((s + w - 1) / p.L + 1) * p.L := by
      rw [Nat.mul_comm]; exact Nat.lt_mul_div_succ _ hL
    have : s + j < (firstLimb p s + limbSpan p s w) * p.L := by
      unfold limbSpan lastLimb firstLimb
      rw [show s / p.L + ((s + w - 1) / p.L - s / p.L + 1) = (s + w - 1) / p.L + 1 by omega]
      omega
    simp [hj, this]
  · simp [hj]

/-! ### Insertion -/

/-- A SET writes each limb of its range once (20_memory.md R38), in whatever order. -/
theorem writeOrder_perm (p : Params) (s w : Nat) :
    (writeOrder p s w).Perm (List.range' (firstLimb p s) (limbSpan p s w)) := placesInOrder_perm _ _ _

@[simp] theorem mem_writeOrder {s w i : Nat} :
    i ∈ writeOrder p s w ↔ firstLimb p s ≤ i ∧ i < firstLimb p s + limbSpan p s w := mem_placesInOrder

/-- The bits of a limb that the range meets, after the insertion of `x` (R69; 20_memory.md R38). -/
theorem insertedLimb_getLsbD (b : Block p) {s w i m : Nat} (x : BitVec w) (h1 : i * p.L < s + w)
    (h2 : s < (i + 1) * p.L) (hw : 1 ≤ w) (hm : m < p.L) : (insertedLimb b s w x i).getLsbD m =
      if s ≤ i * p.L + m ∧ i * p.L + m < s + w then x.getLsbD (i * p.L + m - s) else (b.limb i).getLsbD m := by
  have hmask := localMask_getLsbD (m := m) h1 h2 hw
  simp only [insertedLimb, BitVec.getLsbD_or, BitVec.getLsbD_and, BitVec.getLsbD_not, hmask,
    BitVec.getLsbD_ofNat, Nat.testBit_shiftRight, Nat.testBit_shiftLeft]
  by_cases hin : s ≤ i * p.L + m ∧ i * p.L + m < s + w
  · simp only [if_pos hin]
    simp [hm, hin.1, hin.2, BitVec.getLsbD]
  · simp only [if_neg hin]
    simp [hm, hin]

@[simp] theorem Block.readField_S (b : Block p) (s w : Nat) : (b.readField s w).S = b.S := by simp [Block.readField]
@[simp] theorem Block.readField_RES (b : Block p) (s w : Nat) : (b.readField s w).RES = b.RES := by
  simp [Block.readField]
@[simp] theorem Block.readField_RES_S (b : Block p) (s w : Nat) : (b.readField s w).RES_S = b.RES_S := by
  simp [Block.readField]
@[simp] theorem Block.readField_fault (b : Block p) (s w : Nat) : (b.readField s w).fault = b.fault := by
  simp [Block.readField]
@[simp] theorem Block.readField_k (b : Block p) (s w : Nat) : (b.readField s w).k = b.k := by
  simp [Block.readField]
@[simp] theorem Block.readField_limb (b : Block p) (s w i : Nat) : (b.readField s w).limb i = b.limb i := by
  simp [Block.readField]

@[simp] theorem Block.writeField_RES (b : Block p) (s w : Nat) (x : BitVec w) : (b.writeField s w x).RES = b.RES := by
  simp [Block.writeField]
@[simp] theorem Block.writeField_RES_S (b : Block p) (s w : Nat) (x : BitVec w) :
    (b.writeField s w x).RES_S = b.RES_S := by simp [Block.writeField]
@[simp] theorem Block.writeField_fault (b : Block p) (s w : Nat) (x : BitVec w) :
    (b.writeField s w x).fault = b.fault := by simp [Block.writeField]
@[simp] theorem Block.writeField_k (b : Block p) (s w : Nat) (x : BitVec w) : (b.writeField s w x).k = b.k := by
  simp [Block.writeField]

/-- The limbs after an insertion: the limbs of the range have their new value, every other limb its old one. -/
theorem Block.writeField_limb (b : Block p) (s w : Nat) (x : BitVec w) (i : Nat) : (b.writeField s w x).limb i =
    if firstLimb p s ≤ i ∧ i < firstLimb p s + limbSpan p s w then insertedLimb b s w x i else b.limb i := by
  simp [Block.writeField]

/-- The bits of the storage after an insertion: the field holds `x`, every other bit its old value (R69). -/
theorem Block.writeField_bit (b : Block p) {s w : Nat} (x : BitVec w) (hw : 1 ≤ w) (j : Nat) :
    (b.writeField s w x).bit j = if s ≤ j ∧ j < s + w then x.getLsbD (j - s) else b.bit j := by
  have hL := p.L_pos
  have hjm : j / p.L * p.L + j % p.L = j := by rw [Nat.mul_comm]; exact Nat.div_add_mod j p.L
  have hmL : j % p.L < p.L := Nat.mod_lt _ hL
  have hle : s / p.L ≤ (s + w - 1) / p.L := Nat.div_le_div_right (by omega)
  rw [Block.bit, Block.writeField_limb]
  by_cases hin : firstLimb p s ≤ j / p.L ∧ j / p.L < firstLimb p s + limbSpan p s w
  · obtain ⟨n, hn⟩ : ∃ n, j / p.L = firstLimb p s + n := ⟨j / p.L - firstLimb p s, by omega⟩
    obtain ⟨h1, h2⟩ := limb_meets (p := p) (s := s) (n := n) hw (by omega)
    rw [← hn] at h1 h2
    rw [if_pos hin, insertedLimb_getLsbD b x h1 h2 hw hmL, hjm, Block.bit]
  · have hout : ¬(s ≤ j ∧ j < s + w) := by
      rintro ⟨ha, hb⟩
      apply hin
      unfold firstLimb limbSpan lastLimb firstLimb
      have h1 : s / p.L ≤ j / p.L := Nat.div_le_div_right ha
      have h2 : j / p.L ≤ (s + w - 1) / p.L := Nat.div_le_div_right (by omega)
      omega
    rw [if_neg hin, if_neg hout, Block.bit]

/-- An insertion into a valid range keeps the canonical form of the storage. -/
theorem Block.writeField_wf {b : Block p} {s w : Nat} (x : BitVec w) (hw : 1 ≤ w) (h : s + w ≤ p.T)
    (hb : b.S.wf p.N = true) : (b.writeField s w x).S.wf p.N = true :=
  Block.memWrites_wf _ (fun i hi => by
    have := limbSpan_le hw h
    have := mem_writeOrder.mp hi
    omega) (by simpa using hb)

/-! ### The checks -/

theorem checkRange_none {s w : Nat} : checkRange p s w = none ↔ 1 ≤ w ∧ s + w ≤ p.T := by
  unfold checkRange
  split
  · simp; omega
  · split <;> simp <;> omega

theorem checkField_none {s w tw : Nat} :
    checkField p s w tw = none ↔ (1 ≤ tw ∧ tw ≤ p.DW) ∧ 1 ≤ w ∧ s + w ≤ p.T := by
  unfold checkField
  split
  · simp; omega
  · rw [checkRange_none]; constructor
    · intro h; exact ⟨by omega, h⟩
    · exact fun h => h.2

theorem checkIndex_none {i : Nat} : checkIndex p i = none ↔ i < p.N := by
  unfold checkIndex
  split <;> simp <;> omega

theorem checkShape_none {B : StorageValue} : checkShape p B = none ↔ B.shape = (p.N, p.L) := by
  unfold checkShape
  split
  · rename_i h; simpa using h
  · rename_i h; simpa using h

end Sys2Proof.Machine
end

