-- ==== Sys2Proof/Laws/Exec.lean ====
section
/-! SUPPORT. Every command is one use of the template (00_scope.md R14): its checks, then its body. What `exec` can do
is said once here, for all commands, and per command by its check and its body. -/

namespace Sys2Proof.Machine

/-- The checks of a command. -/
def commandCheck (p : Params) : Instr → Option FaultCode
  | .lcount | .lwidth | .notS | .newv _ => none
  | .getl idx | .setl idx _ => checkIndex p idx
  | .getU start width tw | .getS start width tw => checkField p start width tw
  | .setU start width tw _ | .setS start width tw _ => checkField p start width tw
  | .mask start width => checkRange p start width
  | .andB B | .orB B | .xorB B | .newl B => checkShape p B

/-- The reads and writes of a command. -/
def commandBody {p : Params} (b : Block p) : Instr → Block p
  | .lcount => b.writeRES (BitVec.ofNat p.DW p.N)
  | .lwidth => b.writeRES (BitVec.ofNat p.DW p.L)
  | .getl idx => (b.memRead idx).writeRES (b.limb idx)
  | .setl idx val => b.memWrite idx (valLimb p val)
  | .getU start width tw => (b.readField start width).writeRES (resizeU tw (extract b start width))
  | .getS start width tw => (b.readField start width).writeRES (resizeS tw (extract b start width))
  | .setU start width tw val => b.writeField start width (resizeU width (valSlice p val tw))
  | .setS start width tw val => b.writeField start width (resizeS width (valSlice p val tw))
  | .mask start width => b.writeRES_S (limbOfInt p (fieldmask start width))
  | .andB B => (b.memReads 0 p.N).writeRES_S fun i => b.limb i &&& limbOfB p B i
  | .orB B => (b.memReads 0 p.N).writeRES_S fun i => b.limb i ||| limbOfB p B i
  | .xorB B => (b.memReads 0 p.N).writeRES_S fun i => b.limb i ^^^ limbOfB p B i
  | .notS => (b.memReads 0 p.N).writeRES_S fun i => ~~~b.limb i
  | .newv val => b.memWrites (limbOfInt p (valWord p val).toNat) (List.range p.N)
  | .newl B => b.memWrites (limbOfB p B) (List.range p.N)

/-- Every meaning is the template with its check and its body. -/
theorem exec_eq_command (i : Instr) (s : State) :
    exec i s = s.command i.opcode (commandCheck s.p i) fun b => commandBody b i := by
  cases i <;> rfl

/-- A command that is accepted and passes its checks answers a next state: its body, completed. -/
theorem exec_ok {i : Instr} {s : State} (hr : s.CMD_READY = true) (hc : commandCheck s.p i = none) :
    exec i s = .next { s with blk := (commandBody s.blk.accept i).complete } := by
  rw [exec_eq_command, s.command_ok i.opcode _ hr hc]

/-- A command that is accepted and fails a check answers a next state: fault entry. -/
theorem exec_check_fails {i : Instr} {s : State} {code : FaultCode} (hr : s.CMD_READY = true)
    (hc : commandCheck s.p i = some code) : exec i s = .next (s.takeFault code i.opcode.byte) := by
  rw [exec_eq_command, s.command_fault i.opcode _ hr hc]

/-- In the faulted state no command has a step. -/
theorem exec_of_faulted {i : Instr} {s : State} {r : FaultRecord} (h : s.blk.fault = some r) :
    exec i s = .fault (.faultedState r.code r.cmd) := by
  rw [exec_eq_command, s.command_faulted i.opcode _ _ h]

/-- Everything `exec` can do when it answers a next state. -/
theorem exec_next {i : Instr} {s t : State} (h : exec i s = .next t) :
    s.blk.fault = none ∧
      ((s.RST = true ∧ t = s) ∨
       (s.RST = false ∧ ∃ code, commandCheck s.p i = some code ∧ t = s.takeFault code i.opcode.byte) ∨
       (s.RST = false ∧ commandCheck s.p i = none ∧
          t = { s with blk := (commandBody s.blk.accept i).complete })) := by
  rw [exec_eq_command] at h
  exact State.command_next h

/-- No command refuses. -/
theorem exec_never_refuses (i : Instr) (s : State) (r : Refusal) : exec i s ≠ .refused r := by
  rw [exec_eq_command]
  unfold State.command
  split
  · simp
  · split
    · simp
    · split <;> simp

/-- The body of a command never touches the fault record. -/
@[simp] theorem commandBody_fault {p : Params} (b : Block p) (i : Instr) : (commandBody b i).fault = b.fault := by
  cases i <;> simp [commandBody, Block.memRead, Block.memWrite]

/-- The body of a command never touches the command index. -/
@[simp] theorem commandBody_k {p : Params} (b : Block p) (i : Instr) : (commandBody b i).k = b.k := by
  cases i <;> simp [commandBody, Block.memRead, Block.memWrite]

end Sys2Proof.Machine
end

