-- ==== Sys2Proof/Laws/Accesses.lean ====
section
/-! SUPPORT. What each command puts on the storage port: its reads, then its writes, of the limbs that 20_memory.md R37
names. -/

namespace Sys2Proof.Machine

variable {L : Nat} {p : Params}

@[simp] theorem readsOf_append (l m : List (Access L)) : readsOf (l ++ m) = readsOf l ++ readsOf m := by
  simp [readsOf]

@[simp] theorem writesOf_append (l m : List (Access L)) : writesOf (l ++ m) = writesOf l ++ writesOf m := by
  simp [writesOf]

@[simp] theorem readsOf_nil : readsOf ([] : List (Access L)) = [] := rfl

@[simp] theorem writesOf_nil : writesOf ([] : List (Access L)) = [] := rfl

@[simp] theorem readsOf_reads (is : List Nat) (v : Nat → BitVec L) :
    readsOf (is.map fun j => Access.read j (v j)) = is := by
  induction is with
  | nil => rfl
  | cons i is ih => simpa [readsOf, Access.isRead, Access.idx] using ih

@[simp] theorem readsOf_writes (is : List Nat) (v : Nat → BitVec L) :
    readsOf (is.map fun j => Access.write j (v j)) = [] := by
  simp [readsOf, Access.isRead]

@[simp] theorem writesOf_writes (is : List Nat) (v : Nat → BitVec L) :
    writesOf (is.map fun j => Access.write j (v j)) = is := by
  induction is with
  | nil => rfl
  | cons i is ih => simpa [writesOf, Access.isRead, Access.idx] using ih

@[simp] theorem writesOf_reads (is : List Nat) (v : Nat → BitVec L) :
    writesOf (is.map fun j => Access.read j (v j)) = [] := by
  simp [writesOf, Access.isRead]

/-- The accesses of an insertion: the limbs of the range are read, then written in the order of the build. -/
@[simp] theorem Block.writeField_accesses (b : Block p) (s w : Nat) (x : BitVec w) :
    (b.writeField s w x).accesses = b.accesses ++
      ((rangeLimbs p s w).map (fun j => Access.read j (b.limb j)) ++
        (writeOrder p s w).map fun j => .write j (insertedLimb b s w x j)) := by
  simp [Block.writeField, Block.readField, rangeLimbs, firstLimb, lastLimb, limbSpan]

/-- The limbs a command reads, in the order in which it reads them, then the limbs it writes. -/
theorem commandBody_accesses (b : Block p) (i : Instr) :
    ∃ (order : List Nat) (v : Nat → BitVec p.L), order.Perm (limbsWritten p i) ∧
      (commandBody b i).accesses = b.accesses ++
        ((limbsRead p i).map (fun j => Access.read j (b.limb j)) ++ order.map fun j => .write j (v j)) := by
  have order_perm : ∀ s w, (writeOrder p s w).Perm (rangeLimbs p s w) := writeOrder_perm p
  cases i with
  | lcount | lwidth | mask _ _ => exact ⟨[], fun _ => 0, List.Perm.refl _, by simp [commandBody, limbsRead]⟩
  | getl idx => exact ⟨[], fun _ => 0, List.Perm.refl _, by simp [commandBody, limbsRead, Block.memRead]⟩
  | setl idx val =>
    exact ⟨[idx], fun _ => valLimb p val, List.Perm.refl _, by simp [commandBody, limbsRead, Block.memWrite]⟩
  | getU s w _ | getS s w _ =>
    exact ⟨[], fun _ => 0, List.Perm.refl _, by
      simp [commandBody, limbsRead, Block.readField, rangeLimbs, firstLimb, lastLimb, limbSpan]⟩
  | setU s w tw val =>
    exact ⟨_, insertedLimb b s w (resizeU w (valSlice p val tw)), order_perm s w, by simp [commandBody, limbsRead]⟩
  | setS s w tw val =>
    exact ⟨_, insertedLimb b s w (resizeS w (valSlice p val tw)), order_perm s w, by simp [commandBody, limbsRead]⟩
  | andB _ | orB _ | xorB _ | notS =>
    exact ⟨[], fun _ => 0, List.Perm.refl _, by simp [commandBody, limbsRead, List.range_eq_range']⟩
  | newv val =>
    exact ⟨_, limbOfInt p (valWord p val).toNat, List.Perm.refl _, by simp [commandBody, limbsRead, limbsWritten]⟩
  | newl B => exact ⟨_, limbOfB p B, List.Perm.refl _, by simp [commandBody, limbsRead, limbsWritten]⟩

end Sys2Proof.Machine
end

