-- ==== Sys2Proof/Laws/CommandPort.lean ====
section
/-! SUPPORT. What the host's moves can do: a step by the move at the head of the list, a command cut off by reset. -/

namespace Sys2Proof.Machine

variable {L N : Nat}

/-- The storage of a command cut off: each of the first `n` limbs is old or new, every other limb old. -/
theorem tornStorage_read (S : Memory L) (val : Nat → BitVec L) (cut n j : Nat) :
    (tornStorage S val cut n).read j = S.read j ∨ j < n ∧ (tornStorage S val cut n).read j = val j := by
  induction n with
  | zero => exact .inl rfl
  | succ n ih =>
    have old : (tornStorage S val cut n).read j = S.read j ∨
        j < n + 1 ∧ (tornStorage S val cut n).read j = val j := ih.imp_right fun h => ⟨by omega, h.2⟩
    unfold tornStorage
    split
    · rw [Memory.read_write]
      split
      · rename_i h; subst h; exact .inr ⟨by omega, rfl⟩
      · exact old
    · exact old

/-- A storage in canonical form stays so when a command is cut off. -/
theorem tornStorage_wf {S : Memory L} (val : Nat → BitVec L) (cut : Nat) {n : Nat} (hn : n ≤ N)
    (h : S.wf N = true) : (tornStorage S val cut n).wf N = true := by
  induction n with
  | zero => exact h
  | succ n ih =>
    unfold tornStorage
    split
    · exact Memory.wf_write _ (by omega) (ih (by omega))
    · exact ih (by omega)

variable {s t : State}

/-- An accepted command that is cut off: the block is in reset, over the torn storage. -/
theorem abandonCommand_next {c : Command s.p} (h : runCommand s c = .next t) :
    abandonCommand s c =
      { s with
        blk := Block.reset (tornStorage s.blk.S (fun j => BitVec.ofNat s.p.L (t.blk.limb j).toNat) s.abandoned s.p.N)
        RST := true, abandoned := s.abandoned + 1 } := by
  simp only [abandonCommand, h]; rfl

/-- An offered command that is accepted runs, its move taken off the host's list. -/
theorem step_offer {c : Command s.p} {rest : List (HostMove s.p)} (h : s.host = .offer c :: rest)
    (hr : s.CMD_READY = true) : step s = runCommand { s with host := rest } c := by
  obtain ⟨h1, h2⟩ := s.ready_iff.mp hr
  unfold step
  rw [h]
  simp [offerCommand, h1, h2]

/-- Every step that a faulted block has: reset asserted or released, a command offered into a reset, a write of the
host's own storage. -/
theorem step_of_faulted {r : FaultRecord} (hf : s.blk.fault = some r) (h : step s = .next t) :
    (∃ rest, s.host = .assertReset :: rest ∧ t = State.assertReset { s with host := rest }) ∨
    (∃ c rest, s.host = .offerThenReset c :: rest ∧ t = State.assertReset { s with host := rest }) ∨
    (∃ rest, s.host = .releaseReset :: rest ∧ t = State.releaseReset { s with host := rest }) ∨
    (∃ i v rest, s.host = .writeLimb i v :: rest ∧ t = hostWrite { s with host := rest } i v) := by
  have notReady : s.CMD_READY = false := by simp [State.CMD_READY, hf]
  unfold step at h
  split at h
  · simp [idle, hf] at h
  · simp [offerCommand, hf] at h
  · rename_i c rest hh
    simp only [offerThenReset, notReady] at h
    cases h
    exact .inr (.inl ⟨c, rest, hh, rfl⟩)
  · rename_i rest hh; cases h; exact .inl ⟨rest, hh, rfl⟩
  · rename_i rest hh; cases h; exact .inr (.inr (.inl ⟨rest, hh, rfl⟩))
  · rename_i i v rest hh; cases h; exact .inr (.inr (.inr ⟨i, v, rest, hh, rfl⟩))

end Sys2Proof.Machine
end

