-- ==== Sys2Proof/Laws/Decode.lean ====
section
/-! SUPPORT. The command byte: every operation's byte decodes to it, and no other byte does. -/

namespace Sys2Proof

theorem decodeByte_byte (o : Opcode) : decodeByte o.byte = .ok o := by cases o <;> rfl

@[simp] theorem encode_CMD (p : Params) (i : Instr) : (encode p i).CMD = i.opcode.byte := by cases i <;> rfl

@[simp] theorem assemble_opcode {p : Params} (c : Command p) (o : Opcode) : (assemble c o).opcode = o := by
  cases o <;> rfl

/-- A property of every byte, from its 256 values. -/
theorem forall_byte {P : Byte → Prop} (h : ∀ n : Fin 256, P (BitVec.ofFin n)) (b : Byte) : P b := by
  simpa using h b.toFin

theorem decode_ok {p : Params} {c : Command p} {i : Instr} (h : decode c = .ok i) :
    ∃ o, decodeByte c.CMD = .ok o ∧ i = assemble c o := by
  unfold decode at h
  split at h
  · exact ⟨_, ‹_›, by cases h; rfl⟩
  · cases h

theorem decode_error {p : Params} {c : Command p} :
    (∃ e, decode c = .error e) ↔ ∃ e, decodeByte c.CMD = .error e := by
  unfold decode
  cases decodeByte c.CMD <;> simp

end Sys2Proof
end

