-- ==== Sys2Proof/Laws/PerInstr.lean ====
section
/-! SUPPORT. Statements about every constructor of `Instr`, one lemma each. -/

namespace Sys2Proof.Laws.OpcodeRow

/-- The row of the opcode map of an instruction (30_encoding.md R49, R53): its encoding carries the command byte of its
operation, the byte decodes to that operation, its reserved bits are 0, and its signedness bit is set for GET.S and
SET.S alone. -/
def Statement (i : Instr) : Prop :=
  (∀ p : Params, (encode p i).CMD = i.opcode.byte) ∧ decodeByte i.opcode.byte = .ok i.opcode ∧
    rsvField i.opcode.byte = 0#3 ∧ (sgField i.opcode.byte = true ↔ i.opcode = .getS ∨ i.opcode = .setS)

/-- The reserved bits and the signedness bit of the 15 command bytes. -/
theorem byte_fields (o : Opcode) :
    rsvField o.byte = 0#3 ∧ (sgField o.byte = true ↔ o = .getS ∨ o = .setS) := by cases o <;> decide

theorem of_opcode (i : Instr) : Statement i :=
  ⟨fun p => encode_CMD p i, decodeByte_byte i.opcode, (byte_fields i.opcode).1, (byte_fields i.opcode).2⟩

theorem lcount : Statement .lcount := of_opcode _
theorem lwidth : Statement .lwidth := of_opcode _
theorem getl (idx : Nat) : Statement (.getl idx) := of_opcode _
theorem setl (idx val : Nat) : Statement (.setl idx val) := of_opcode _
theorem getU (start width tw : Nat) : Statement (.getU start width tw) := of_opcode _
theorem getS (start width tw : Nat) : Statement (.getS start width tw) := of_opcode _
theorem setU (start width tw val : Nat) : Statement (.setU start width tw val) := of_opcode _
theorem setS (start width tw val : Nat) : Statement (.setS start width tw val) := of_opcode _
theorem mask (start width : Nat) : Statement (.mask start width) := of_opcode _
theorem andB (B : StorageValue) : Statement (.andB B) := of_opcode _
theorem orB (B : StorageValue) : Statement (.orB B) := of_opcode _
theorem xorB (B : StorageValue) : Statement (.xorB B) := of_opcode _
theorem notS : Statement .notS := of_opcode _
theorem newv (val : Nat) : Statement (.newv val) := of_opcode _
theorem newl (B : StorageValue) : Statement (.newl B) := of_opcode _

end Sys2Proof.Laws.OpcodeRow
end

