-- ==== Sys2Proof/Tests/Slice0.lean ====
section
/-! SUPPORT. Small tests. Expected results come from the spec's tables (95_test_vectors.md section 2; the row is named)
and from the opcode map (30_encoding.md R53). The second half shows, for each statement of
`Certificates/Slice0/Obligations.lean` with hypotheses, a state and operands that meet them, clause by clause. -/

namespace Sys2Proof.Tests

open Sys2Proof.Machine

/-! ### The configurations of 95_test_vectors.md, and small states -/

abbrev cfgA : Params := { N := 1, L := 8, DW := 32, PW := 4, TWB := 6 }
abbrev cfgB : Params := { N := 2, L := 8, DW := 32, PW := 5, TWB := 6 }
abbrev cfgC : Params := { N := 4, L := 8, DW := 32, PW := 6, TWB := 6 }
abbrev cfgD : Params := { N := 3, L := 4, DW := 8, PW := 4, TWB := 4 }
abbrev cfgE : Params := { N := 4, L := 16, DW := 32, PW := 7, TWB := 6 }

/-- The storage with these limbs from limb `i` on. -/
def fill (L : Nat) : Nat → List Nat → Memory L
  | _, [] => []
  | i, v :: l => (fill L (i + 1) l).write i (BitVec.ofNat L v)

/-- The machine after reset over a storage with these limbs. -/
def start (p : Params) (l : List Nat) : State :=
  { p := p, blk := Block.reset (fill p.L 0 l), RST := false, host := [], abandoned := 0 }

/-- A storage-shaped operand. -/
def val (w : Nat) (l : List Nat) : StorageValue := ⟨w, l.map (BitVec.ofNat w)⟩

/-- What a register or the storage holds in the next state. -/
def after {α : Type} (f : State → α) : Host.Outcome State Fault Refusal → Option α
  | .next s => some (f s)
  | .fault _ => none
  | .refused _ => none

def limbs (s : State) : List Nat := (List.range s.p.N).map fun i => (s.blk.limb i).toNat
def RES (s : State) : Option Nat := s.blk.RES.map BitVec.toNat
def RES_S (s : State) : Option (List Nat) := s.blk.RES_S.map fun v => v.toList.map BitVec.toNat

/-- STATUS, FCMD and the storage. -/
def faultView (s : State) : Byte × Byte × List Nat := (s.blk.STATUS, s.blk.FCMD, limbs s)

/-! ### WellFormed refuses a field wider than its port -/

theorem test_wf_idx : (Instr.getl 32).WellFormed cfgB = false := by decide
theorem test_wf_setl_val : (Instr.setl 0 (2 ^ 32)).WellFormed cfgB = false := by decide
theorem test_wf_start : (Instr.getU 32 1 1).WellFormed cfgB = false := by decide
theorem test_wf_width : (Instr.getS 0 32 1).WellFormed cfgB = false := by decide
theorem test_wf_tw : (Instr.setU 0 1 64 0).WellFormed cfgB = false := by decide
theorem test_wf_val : (Instr.setS 0 1 1 (2 ^ 32)).WellFormed cfgB = false := by decide
theorem test_wf_mask : (Instr.mask 0 32).WellFormed cfgB = false := by decide
theorem test_wf_newv : (Instr.newv (2 ^ 32)).WellFormed cfgB = false := by decide

/-! ### Decoding: each command byte written out as RSV (000), SG, OPC (30_encoding.md R49, R53), each operand field
distinct. -/

/-- A command with a distinct value in every operand field. -/
def word (cmd : Byte) : Command cfgB :=
  { CMD := cmd, START := 6#5, WIDTH := 4#5, TW := 9#6, VAL := 0xB#32, IDX := 1#5, B := val 8 [0xAA, 0x55] }

theorem test_decode_lcount : decode (word 0b00000000#8) = .ok .lcount := by rfl
theorem test_decode_lwidth : decode (word 0b00000001#8) = .ok .lwidth := by rfl
theorem test_decode_getl : decode (word 0b00000010#8) = .ok (.getl 1) := by rfl
theorem test_decode_setl : decode (word 0b00000011#8) = .ok (.setl 1 11) := by rfl
theorem test_decode_getU : decode (word 0b00000100#8) = .ok (.getU 6 4 9) := by rfl
theorem test_decode_getS : decode (word 0b00010100#8) = .ok (.getS 6 4 9) := by rfl
theorem test_decode_setU : decode (word 0b00000101#8) = .ok (.setU 6 4 9 11) := by rfl
theorem test_decode_setS : decode (word 0b00010101#8) = .ok (.setS 6 4 9 11) := by rfl
theorem test_decode_mask : decode (word 0b00000110#8) = .ok (.mask 6 4) := by rfl
theorem test_decode_andB : decode (word 0b00000111#8) = .ok (.andB (val 8 [0xAA, 0x55])) := by rfl
theorem test_decode_orB : decode (word 0b00001000#8) = .ok (.orB (val 8 [0xAA, 0x55])) := by rfl
theorem test_decode_xorB : decode (word 0b00001001#8) = .ok (.xorB (val 8 [0xAA, 0x55])) := by rfl
theorem test_decode_notS : decode (word 0b00001010#8) = .ok .notS := by rfl
theorem test_decode_newv : decode (word 0b00001011#8) = .ok (.newv 11) := by rfl
theorem test_decode_newl : decode (word 0b00001100#8) = .ok (.newl (val 8 [0xAA, 0x55])) := by rfl

/-- 95_test_vectors.md 2.1: the illegal bytes. -/
theorem test_decode_illegal :
    [0x0D#8, 0x0E#8, 0x0F#8].map decodeByte = List.replicate 3 (.error .unassignedOpcode) ∧
    [0x10#8, 0x16#8, 0x1A#8].map decodeByte = List.replicate 3 (.error .signednessNotAllowed) ∧
    [0x20#8, 0x24#8, 0x34#8, 0x84#8, 0xFF#8].map decodeByte = List.replicate 5 (.error .reservedBits) :=
  ⟨rfl, rfl, rfl⟩

/-- Exactly 15 of the 256 bytes decode (30_encoding.md R54). -/
theorem test_decode_count :
    ((List.range 256).filter fun n => (decodeTableWord 8 n).isSome) =
      [0x00, 0x01, 0x02, 0x03, 0x04, 0x05, 0x06, 0x07, 0x08, 0x09, 0x0A, 0x0B, 0x0C, 0x14, 0x15] := by decide

/-! ### One step per instruction (95_test_vectors.md 2.2 to 2.5) -/

theorem test_lcount : after RES (exec .lcount (start cfgD [0xC, 0x5, 0xA])) = some (some 3) := by decide
theorem test_lwidth : after RES (exec .lwidth (start cfgD [0xC, 0x5, 0xA])) = some (some 4) := by decide

/-- 2.2 row 3 -/
theorem test_getl : after RES (exec (.getl 1) (start cfgB [0x34, 0x12])) = some (some 0x12) := by decide
/-- 2.2 row 5 -/
theorem test_getl_fault : after faultView (exec (.getl 1) (start cfgA [0x14])) = some (0x51#8, 0x02#8, [0x14]) := by
  decide
/-- 2.2 row 6 -/
theorem test_setl : after limbs (exec (.setl 0 0x1FF) (start cfgB [0x34, 0x12])) = some [0xFF, 0x12] := by decide
/-- 2.2 row 7 -/
theorem test_setl_fault : after faultView (exec (.setl 1 0) (start cfgA [0x14])) = some (0x51#8, 0x03#8, [0x14]) := by
  decide
/-- 2.3 row 7 -/
theorem test_getU_spans : after RES (exec (.getU 6 4 8) (start cfgB [0xC0, 0x02])) = some (some 0xB) := by decide
/-- 2.3 row 26: the sum is exact. -/
theorem test_getU_range : after faultView (exec (.getU 15 2 8) (start cfgA [0x14])) = some (0x41#8, 0x04#8, [0x14]) := by
  decide
/-- 2.3 row 13 -/
theorem test_getS_spans :
    after RES (exec (.getS 8 24 32) (start cfgC [0x21, 0x43, 0x65, 0x87])) = some (some 0xFF876543) := by decide
/-- 2.3 row 6: truncation. -/
theorem test_getS_truncates : after RES (exec (.getS 4 4 2) (start cfgA [0xA5])) = some (some 2) := by decide
/-- 2.3 row 45 -/
theorem test_setU_spans :
    after limbs (exec (.setU 7 18 32 0) (start cfgC [0xFF, 0xFF, 0xFF, 0xFF])) = some [0x7F, 0x00, 0x00, 0xFE] := by
  decide
/-- 2.3 row 51: TARGET_WIDTH before ZERO_WIDTH. -/
theorem test_setU_fault : after faultView (exec (.setU 2 0 0 1) (start cfgA [0x14])) = some (0x21#8, 0x05#8, [0x14]) := by
  decide
/-- 2.3 row 39 -/
theorem test_setS_extends : after limbs (exec (.setS 4 12 8 0x80) (start cfgB [0, 0])) = some [0x00, 0xF8] := by decide
/-- 2.3 row 48: `L = 4`. -/
theorem test_setS_positive : after limbs (exec (.setS 3 6 8 0x3F) (start cfgD [0, 0, 0])) = some [0x8, 0xF, 0x1] := by
  decide
/-- 2.4 row 6 -/
theorem test_mask : after RES_S (exec (.mask 7 10) (start cfgC [9, 9, 9, 9])) = some (some [0x80, 0xFF, 0x01, 0x00]) := by
  decide
/-- 2.4 row 9 -/
theorem test_mask_fault : after faultView (exec (.mask 8 1) (start cfgA [9])) = some (0x41#8, 0x06#8, [9]) := by decide
/-- 2.5 row 1 -/
theorem test_andB :
    after RES_S (exec (.andB (val 8 [0x3C, 0xC3])) (start cfgB [0xF0, 0x0F])) = some (some [0x30, 0x03]) := by decide
/-- 2.5 row 8 -/
theorem test_andB_shape :
    after faultView (exec (.andB (val 8 [1, 2])) (start cfgA [0x14])) = some (0x61#8, 0x07#8, [0x14]) := by decide
/-- 2.5 row 2 -/
theorem test_orB :
    after RES_S (exec (.orB (val 8 [0x3C, 0xC3])) (start cfgB [0xF0, 0x0F])) = some (some [0xFC, 0xCF]) := by decide
/-- 2.5 row 3 -/
theorem test_xorB :
    after RES_S (exec (.xorB (val 8 [0x3C, 0xC3])) (start cfgB [0xF0, 0x0F])) = some (some [0xCC, 0xCC]) := by decide
/-- 2.5 row 4 -/
theorem test_notS : after RES_S (exec .notS (start cfgB [0xF0, 0x0F])) = some (some [0x0F, 0xF0]) := by decide
/-- Program P4 step 4: the complement stays within `L = 4` bits. -/
theorem test_notS_width : after RES_S (exec .notS (start cfgD [0xC, 0xF, 0xB])) = some (some [0x3, 0x0, 0x4]) := by decide
/-- 2.2 row 8 -/
theorem test_newv : after limbs (exec (.newv 0x31234) (start cfgB [7, 9])) = some [0x34, 0x12] := by decide
/-- 2.2 row 11: limbs above `DW` become 0. -/
theorem test_newv_above_DW :
    after limbs (exec (.newv 0xDEADBEEF) (start cfgE [1, 2, 3, 4])) = some [0xBEEF, 0xDEAD, 0, 0] := by decide
/-- 2.2 row 12 -/
theorem test_newl : after limbs (exec (.newl (val 8 [0xAA, 0x55])) (start cfgB [1, 2])) = some [0xAA, 0x55] := by decide
/-- 2.2 row 13: a limb wider than `L`, as the assembler writes it. -/
theorem test_newl_shape :
    after faultView (exec (.newl (asmStorage cfgA [0x100])) (start cfgA [0x14])) = some (0x61#8, 0x0C#8, [0x14]) := by
  decide

/-! ### The open orders of a build (00_scope.md R10) -/

/-- The limbs that a command has written, in the order of the writes. -/
def writes (s : State) : List Nat := writesOf s.blk.accesses

/-- 20_memory.md R41: the default order ascends. -/
theorem test_write_order_default : after writes (exec (.setU 4 24 32 0) (start cfgC [1, 2, 3, 4])) = some [0, 1, 2, 3] := by
  decide

/-- A build with another order of its own for three limbs, and one that descends. -/
theorem test_write_order_other :
    after writes (exec (.setU 0 24 32 0) (start { cfgC with LIMB_WRITE_ORDER := .listed [[1, 0], [1, 0, 2]] } [1, 2, 3, 4])) =
      some [1, 0, 2] ∧
    after writes (exec (.setU 0 24 32 0) (start { cfgC with LIMB_WRITE_ORDER := .descending } [1, 2, 3, 4])) =
      some [2, 1, 0] := by decide

/-- 20_memory.md R33: a limb of 16 bits in the host's bytes, in both orders. -/
theorem test_limb_bytes : (start cfgE [0xBEEF]).blk.limbBytes 0 = [0xEF#8, 0xBE#8] ∧
    (start { cfgE with HOST_BYTE_ORDER := .descending } [0xBEEF]).blk.limbBytes 0 = [0xBE#8, 0xEF#8] := by decide

/-- 30_encoding.md R57: `[9:6]` is the field of four bits at 6; `[5:6]` has width 0. -/
theorem test_msb_lsb : pseudoGetU 9 6 8 = .getU 6 4 8 ∧ pseudoMask 5 6 = .mask 6 0 := by decide

/-! ### Steps of the machine -/

/-- The first instruction after reset. -/
theorem test_step_from_reset : after RES (step (State.reset.withFetchWord 8 0x01)) = some (some 8) := by decide

/-- 95_test_vectors.md 2.4 row 10: MASK ignores TW. -/
theorem test_step_mask_ignores_TW :
    after RES_S (step ((start cfgA [9]).offerNext
      { Command.ofByte cfgA 0x06#8 with START := 2#4, WIDTH := 3#4, TW := 0#6 })) = some (some [0x1C]) := by decide

/-- 2.6 row 3: GETL ignores WIDTH. -/
theorem test_step_getl_ignores_WIDTH :
    after RES (step ((start cfgA [0x14]).offerNext (Command.ofByte cfgA 0x02#8))) = some (some 0x14) := by decide

/-- 2.1: an illegal byte. -/
theorem test_step_illegal :
    after faultView (step ((start cfgA [0x14]).withFetchWord 8 0x1A)) = some (0x11#8, 0x1A#8, [0x14]) := by decide

/-- The block stopped by SET.U with a range too long (2.3 row 49). -/
def stopped : State := (start cfgA [0x55]).takeFault .range 0x05#8

/-- 2.6 row 1 -/
theorem test_stopped_accepts_nothing : after RES (step (stopped.withFetchWord 8 0x00)) = none := by decide

/-- 2.6 row 2 -/
theorem test_stopped_reset :
    after faultView (step { stopped with host := [.assertReset] }) = some (0x00#8, 0x00#8, [0x55]) := by decide

/-- 30_encoding.md R56: the text of a command. -/
theorem test_asm : asmLine (.setU 2 3 8 5) = "SET.U 2, 3, 8, 5" ∧ asmLine .notS = "NOT" := ⟨by decide, by decide⟩

/-! ### Witnesses: states and operands that meet the hypotheses of the statements -/

/-- A block that accepts commands and has run one before. -/
def ready : State :=
  { start cfgB [0x34, 0x12] with
    blk := ((start cfgB [0x34, 0x12]).blk.writeRES 0x77#8).complete }

/-- The same with a command offered, and nothing after it. -/
def offering (c : Command cfgB) : State := { ready with host := [.offer c] }

/-- `CMD_READY = 1`, the hypothesis of the statements about commands: right after reset and after a command. -/
theorem witness_ready : (start cfgB [0x34, 0x12]).CMD_READY = true ∧ ready.CMD_READY = true ∧
    RES ready = some 0x77 ∧ (start cfgA [0xFF]).CMD_READY = true ∧ (start cfgD [1, 2, 3]).CMD_READY = true := by
  decide

/-- O1: every command byte of the map stands on the port of some command. -/
theorem witness_OpcodeMapDecodes (b : Byte) : (word b).CMD = b := rfl

/-- O2: an offered illegal byte of each of the three kinds, at the ends of their ranges. -/
theorem witness_IllegalBytesRaiseIllegalCmd :
    (offering (word 0x0D#8)).host = .offer (word 0x0D#8) :: [] ∧ (offering (word 0x0D#8)).CMD_READY = true ∧
    (∃ e, decode (word 0x0D#8) = .error e) ∧ (∃ e, decode (word 0x0F#8) = .error e) ∧
    (∃ e, decode (word 0x10#8) = .error e) ∧ (∃ e, decode (word 0x1C#8) = .error e) ∧
    (∃ e, decode (word 0x20#8) = .error e) ∧ (∃ e, decode (word 0xFF#8) = .error e) :=
  ⟨rfl, by decide, ⟨_, rfl⟩, ⟨_, rfl⟩, ⟨_, rfl⟩, ⟨_, rfl⟩, ⟨_, rfl⟩, ⟨_, rfl⟩⟩

/-- O3, both clauses: a well-formed instruction with every operand at its port's largest value; a command that
decodes. -/
theorem witness_DecodeAndEncodeAgree :
    (Instr.setS 31 31 63 (2 ^ 32 - 1)).WellFormed cfgB = true ∧
    decode (word 0x15#8) = .ok (.setS 6 4 9 11) := ⟨by decide, rfl⟩

/-- O4: two commands that differ in fields MASK does not name. -/
theorem witness_UnnamedFieldsAreIgnored :
    decodeByte (word 0x06#8).CMD = .ok .mask ∧
    ({ word 0x06#8 with TW := 0#6, IDX := 31#5 } : Command cfgB).CMD = (word 0x06#8).CMD ∧
    ({ word 0x06#8 with TW := 0#6, IDX := 31#5 } : Command cfgB).START = (word 0x06#8).START ∧
    ({ word 0x06#8 with TW := 0#6, IDX := 31#5 } : Command cfgB).WIDTH = (word 0x06#8).WIDTH ∧
    ({ word 0x06#8 with TW := 0#6, IDX := 31#5 } : Command cfgB) ≠ word 0x06#8 :=
  ⟨rfl, rfl, rfl, rfl, by decide⟩

/-- O5: an accepted command. -/
theorem witness_StepRunsTheDecodedInstruction :
    (offering (word 0x05#8)).host = .offer (word 0x05#8) :: [] ∧ (offering (word 0x05#8)).CMD_READY = true ∧
    decode (word 0x05#8) = .ok (.setU 6 4 9 11) := ⟨rfl, by decide, rfl⟩

/-- O8 (GETL) and O9 (SETL): the last index, and the first one past the end, of the two-limb build. -/
theorem witness_limb_index : ready.CMD_READY = true ∧ 1 < ready.p.N ∧ ready.p.N ≤ 2 ∧ ¬(2 < ready.p.N) := by decide

/-- O11 (NEWL), O26 to O28 (AND, OR, XOR): a `B` of the shape, and one wrong in each half of the shape. -/
theorem witness_shapes : ready.CMD_READY = true ∧
    (val 8 [1, 2]).shape = (ready.p.N, ready.p.L) ∧ (val 8 [1, 2, 3]).shape ≠ (ready.p.N, ready.p.L) ∧
    (val 8 [1]).shape ≠ (ready.p.N, ready.p.L) ∧ (val 9 [1, 2]).shape ≠ (ready.p.N, ready.p.L) := by decide

/-- O12 to O15 (GET, SET), clause by clause: the whole storage at the largest target width, the last bit at the
smallest; a target width just outside; width 0; a range one bit too long, which the first clause excludes. -/
theorem witness_ranges : ready.CMD_READY = true ∧
    (1 ≤ 32 ∧ 32 ≤ ready.p.DW ∧ 1 ≤ 16 ∧ 0 + 16 ≤ ready.p.T) ∧ (1 ≤ ready.p.DW ∧ 15 + 1 ≤ ready.p.T) ∧
    ready.p.DW < 33 ∧ (1 ≤ 16 ∧ ready.p.T < 1 + 16) ∧ ¬(1 + 16 ≤ ready.p.T) := by decide

/-- O16 (MASK): its three clauses meet at `start + width = T`. -/
theorem witness_mask : ready.CMD_READY = true ∧ (1 ≤ 16 ∧ 0 + 16 ≤ ready.p.T) ∧ (1 ≤ 17 ∧ ready.p.T < 0 + 17) := by
  decide

/-- One limb of 16 bits: a build of the same total width as the two limbs of 8. -/
abbrev cfgW : Params := { N := 1, L := 16, DW := 32, PW := 5, TWB := 6 }

/-- O17: a range across limbs, one within a limb, and two builds of one total width with the same `Sint`. -/
theorem witness_Extraction : (1 ≤ 10 ∧ 6 + 10 ≤ cfgB.T) ∧ (1 ≤ 4 ∧ 12 + 4 ≤ cfgB.T ∧ 12 / cfgB.L = (12 + 4 - 1) / cfgB.L) ∧
    cfgB.T = cfgW.T ∧ ready.blk.sint = (start cfgW [0x1234]).blk.sint := by decide

/-- O18: limbs inside and outside a range, on builds of each order. -/
theorem witness_Insertion : 1 ≤ 10 ∧ 4 + 10 ≤ cfgC.T ∧ (4 / cfgC.L ≤ 1 ∧ 1 ≤ (4 + 10 - 1) / cfgC.L) ∧
    (4 + 10 - 1) / cfgC.L < 2 ∧ 8 / cfgC.L > 0 ∧ cfgC.LIMB_WRITE_ORDER = .ascending ∧
    ({ cfgC with LIMB_WRITE_ORDER := .descending } : Params).LIMB_WRITE_ORDER ≠ .ascending := by decide

/-- O19: the largest value of the widest field that fits `DW`, at the end of the storage (`DW = 8`, `T = 12`). -/
theorem witness_SetThenGet : (start cfgD [1, 2, 3]).CMD_READY = true ∧ 1 ≤ 8 ∧ 4 + 8 ≤ cfgD.T ∧ 8 ≤ cfgD.DW ∧
    255 < 2 ^ 8 := by decide

/-- O20: the frame clause at the whole storage; the commuting clause at two fields that fill the storage; the GET clause
at the three adjacent fields of program P2. -/
theorem witness_DisjointFields : ready.CMD_READY = true ∧ (1 ≤ 1 ∧ 1 ≤ ready.p.DW) ∧ (1 ≤ 16 ∧ 0 + 16 ≤ ready.p.T) ∧
    (1 ≤ 8 ∧ 0 + 8 ≤ ready.p.T ∧ 8 + 8 ≤ ready.p.T ∧ 0 + 8 ≤ 8) ∧ (1 ≤ 6 ∧ 0 + 6 ≤ ready.p.T) ∧
    (1 ≤ 4 ∧ 6 + 4 ≤ ready.p.T) ∧ (1 ≤ 6 ∧ 10 + 6 ≤ ready.p.T) ∧ 0 + 6 ≤ 6 ∧ 0 + 6 ≤ 10 ∧ 6 + 4 ≤ 10 := by decide

/-- O21: each of the four alternatives, at the widest field that fits `DW`; a SET.S with a narrower target too. -/
theorem witness_AllOnes : (start cfgD [1, 2, 3]).CMD_READY = true ∧ 1 ≤ 8 ∧ 4 + 8 ≤ cfgD.T ∧ 8 ≤ cfgD.DW ∧
    (8 ≤ 8 ∧ 0xFF % 2 ^ 8 = 2 ^ 8 - 1) ∧ 0x3 % 2 ^ min 8 2 = 2 ^ min 8 2 - 1 ∧
    Instr.setS 4 8 8 (BitVec.ofInt cfgD.DW (-1)).toNat = .setS 4 8 8 255 ∧
    pseudoFillf 4 8 = .setS 4 8 1 1 := by decide

/-- O22: two builds of total width 16 with the same `Sint`, and a range across the limbs of one of them. -/
theorem witness_LimbGranularity : ready.CMD_READY = true ∧ (start cfgW [0x1234]).CMD_READY = true ∧
    ready.p.T = (start cfgW [0x1234]).p.T ∧ ready.blk.sint = (start cfgW [0x1234]).blk.sint ∧ ready.p ≠ cfgW ∧
    32 ≤ ready.p.DW ∧ 32 ≤ cfgW.DW ∧ 6 + 10 ≤ ready.p.T := by decide

/-- O23, O24: a legal target width and the whole storage. -/
theorem witness_whole_storage : ready.CMD_READY = true ∧ 1 ≤ ready.p.DW ∧ 1 ≤ 16 ∧ 0 + 16 ≤ ready.p.T ∧
    Instr.mask 0 16 ∈ [Instr.getU 0 16 32, .getS 0 16 32, .setU 0 16 32 7, .setS 0 16 32 7, .mask 0 16] := by decide

/-- O25, each of the four kinds at its boundary. -/
theorem witness_Truncation : ready.CMD_READY = true ∧ 8 ≤ ready.p.DW ∧ 6 + 10 ≤ ready.p.T ∧ 1 < ready.p.N ∧
    2 ^ 10 ≤ 1024 ∧ 8 < 10 ∧ 2 ^ ready.p.L ≤ 256 ∧ 2 ^ ready.p.T ≤ 65536 := by decide

/-- O31 to O34: a command that completes, one that faults, and one for which two causes hold. -/
theorem witness_completes_and_faults : ready.CMD_READY = true ∧
    after (fun s => s.blk.fault) (exec (.setU 6 4 8 5) ready) = some none ∧
    after (fun s => s.blk.fault) (exec (.setU 6 0 0 5) ready) = some (some ⟨.targetWidth, 0x05#8⟩) := by decide

/-- O33: two causes at once. -/
theorem witness_two_causes : commandCause cfgB (.setU 31 0 0 5) .targetWidth ∧
    commandCause cfgB (.setU 31 0 0 5) .zeroWidth ∧ commandCause cfgB (.setU 31 0 0 5) .range :=
  ⟨.inl rfl, rfl, by show cfgB.T < 31 + 0; decide⟩

/-- O35: a stopped block with each move of the host that has a clause. -/
theorem witness_OnlyResetLeaves : stopped.blk.fault = some ⟨.range, 0x05#8⟩ ∧ stopped.host = [] ∧
    (after (fun s => s.blk.fault) (step { stopped with host := [.assertReset] }) = some none) ∧
    (after (fun s => s.blk.fault) (step { stopped with host := [.offerThenReset (Command.ofByte cfgA 0x00#8)] }) =
      some none) ∧
    (after (fun s => s.blk.fault) (step { stopped with host := [.writeLimb ⟨0, by decide⟩ 0x12#8] }) =
      some (some ⟨.range, 0x05#8⟩)) ∧
    (after limbs (step { stopped with host := [.releaseReset] }) = some [0x55]) ∧
    ({ stopped with host := [.offer (Command.ofByte cfgA 0x00#8)] } : State).host =
      .offer (Command.ofByte cfgA 0x00#8) :: [] := by decide

/-- A block whose next move cuts off a command. -/
def cutting (c : Command cfgB) : State := { ready with host := [.offerThenReset c] }

/-- O36, O46: reset asserted and released; a SET across both limbs, and an illegal byte, cut off by reset; a command cut
off that was not accepted, in the faulted state and while RST is asserted. -/
theorem witness_Reset :
    ({ stopped with host := [.assertReset, .releaseReset] } : State).host = .assertReset :: .releaseReset :: [] ∧
    (cutting (word 0x05#8)).host = .offerThenReset (word 0x05#8) :: [] ∧ (cutting (word 0x05#8)).CMD_READY = true ∧
    decode (word 0x05#8) = .ok (.setU 6 4 9 11) ∧ (6 / ready.p.L < (6 + 4 - 1) / ready.p.L ∧ 6 + 4 ≤ ready.p.T) ∧
    (after limbs (exec (.setU 6 4 9 11) ready) = some [0xF4, 0x12]) ∧
    (∃ e, decode (word 0x1F#8) = .error e) ∧
    ({ stopped with host := [.offerThenReset (Command.ofByte cfgA 0x00#8)] } : State).CMD_READY = false ∧
    ({ cutting (word 0x05#8) with RST := true } : State).CMD_READY = false :=
  ⟨rfl, rfl, by decide, rfl, by decide, by decide, ⟨_, rfl⟩, by decide, by decide⟩

/-- O37: a command offered while RST is asserted, no move, and a write of the host to the last limb. -/
theorem witness_Waiting :
    ({ offering (word 0x00#8) with RST := true } : State).host = .offer (word 0x00#8) :: [] ∧
    ({ offering (word 0x00#8) with RST := true } : State).blk.fault = none ∧ ready.host = [] ∧ ready.blk.fault = none ∧
    after limbs (step { ready with host := [.writeLimb ⟨1, by decide⟩ 0xEE#8] }) = some [0x34, 0xEE] := by decide

/-- O38: two blocks with one storage and different registers. -/
theorem witness_CommandsReadOnlyTheStorage : ready.CMD_READY = true ∧
    (start cfgB [0x34, 0x12]).blk.fault = none ∧ (start cfgB [0x34, 0x12]).blk.S = ready.blk.S ∧
    RES (start cfgB [0x34, 0x12]) ≠ RES ready := ⟨by decide, by decide, rfl, by decide⟩

/-- O39, O41: steps and commands with a next state: one that completes, one that faults, one that resets. -/
theorem witness_next_states : after limbs (exec (.newv 0) ready) = some [0, 0] ∧
    after faultView (step (offering (word 0x05#8))) = some (0x00#8, 0x00#8, [0xF4, 0x12]) ∧
    after faultView (step (offering { word 0x05#8 with TW := 0#6 })) = some (0x21#8, 0x05#8, [0x34, 0x12]) ∧
    after faultView (step { stopped with host := [.assertReset] }) = some (0x00#8, 0x00#8, [0x55]) := by decide

/-- O42: no command, and a list whose second command faults before a third. -/
theorem witness_Run :
    ({ ready with host := [] } : State).host = ([] : List (Command cfgB)).map HostMove.offer ∧
    ({ ready with host := [.offer (word 0x05#8), .offer (word 0x1F#8), .offer (word 0x00#8)] } : State).host =
      [word 0x05#8, word 0x1F#8, word 0x00#8].map HostMove.offer ∧ ready.CMD_READY = true := ⟨rfl, rfl, by decide⟩

/-- O43: the last bit, the whole storage, and a range by its top and bottom bits, down to width 0. -/
theorem witness_Pseudo : ready.CMD_READY = true ∧ 15 < ready.p.T ∧ 1 ≤ 16 ∧ 0 + 16 ≤ ready.p.T ∧ 6 + 4 = 9 + 1 ∧
    6 + 0 = 5 + 1 := by decide

/-- O44: a state of the invariant from which a step is taken. -/
theorem witness_Invariant : (offering (word 0x05#8)).Inv ∧
    after limbs (step (offering (word 0x05#8))) = some [0xF4, 0x12] := by
  refine ⟨⟨⟨by decide, ?_, ?_, by decide⟩, by decide⟩, by decide⟩
  · intro a ha; exact absurd ha List.not_mem_nil
  · intro r hr; exact absurd hr (by simp [offering, ready, start])

/-- O45: a storage in canonical form on another build. -/
theorem witness_ResetInvariant : (fill cfgD.L 0 [0xC, 0x0, 0xA]).wf cfgD.N = true ∧
    fill cfgD.L 0 [0xC, 0x0, 0xA] ≠ [] := by decide

/-- O46, first clause: after the step the host may release RST. -/
theorem witness_Release :
    after (fun s => s.CMD_READY) (step { stopped with RST := true, host := [.releaseReset] }) = some false ∧
    after (fun s => s.CMD_READY) (step { (start cfgA [0x55]) with RST := true, host := [.releaseReset] }) = some true := by
  decide

/-- O47: a block with no fault, and two builds that differ in both orders. -/
theorem witness_OpenOrders : ready.blk.fault = none ∧
    ({ cfgB with LIMB_WRITE_ORDER := .descending, HOST_BYTE_ORDER := .listed [[1, 0]] } : Params) ≠ cfgB := by decide

end Sys2Proof.Tests
end

section
/-! SUPPORT. Scope of the spec (00_scope.md): the template of a command reads before it writes (R14), and the open
orders of a build (R10) show in nothing but the order of the recorded accesses. -/

namespace Sys2Proof.Machine

/-! ### Reads before writes (R14) -/

/-- Settles O32: a command that fails a check accesses no limb, and the body of every other command reads, then
writes (`commandBody_accesses`). -/
theorem readsComeBeforeWrites : Obligations.ReadsComeBeforeWrites := by
  unfold Obligations.ReadsComeBeforeWrites
  intro s i hr
  cases hc : commandCheck s.p i with
  | some code =>
    exact ⟨s.blk.takeFault code i.opcode.byte, [], [], exec_check_fails hr hc, rfl, by simp, by simp⟩
  | none =>
    obtain ⟨order, v, -, hacc⟩ := commandBody_accesses s.blk.accept i
    refine ⟨_, _, _, exec_ok hr hc, hacc.trans (List.nil_append _), ?_, ?_⟩
    · simp [Access.isRead]
    · simp [Access.isRead]

/-! ### The same block on a build with other open orders (R10) -/

/-- The build that differs from `p` in the two open orders alone. -/
abbrev buildWithOrders (p : Params) (o h : PlaceOrder) : Params :=
  { p with LIMB_WRITE_ORDER := o, HOST_BYTE_ORDER := h }

/-- The block with the same contents on the build with the open orders `o` and `h`. -/
def Block.withOrders {p : Params} (b : Block p) (o h : PlaceOrder) : Block (buildWithOrders p o h) :=
  ⟨b.S, b.RES, b.RES_S, b.fault, b.DONE, b.accesses, b.k⟩

/-- Two blocks that the spec does not tell apart: the same limbs, registers, fault record, `DONE` and command index,
and the same accesses but for their order. -/
structure Block.SameButOrder {p : Params} (c d : Block p) : Prop where
  limb : ∀ j, c.limb j = d.limb j
  RES : c.RES = d.RES
  RES_S : c.RES_S = d.RES_S
  fault : c.fault = d.fault
  DONE : c.DONE = d.DONE
  k : c.k = d.k
  accesses : c.accesses.Perm d.accesses

variable {p : Params}

theorem Block.SameButOrder.refl (b : Block p) : b.SameButOrder b :=
  ⟨fun _ => rfl, rfl, rfl, rfl, rfl, rfl, List.Perm.refl _⟩

theorem Block.SameButOrder.complete {c d : Block p} (hcd : c.SameButOrder d) :
    c.complete.SameButOrder d.complete where
  limb := hcd.limb
  RES := hcd.RES
  RES_S := hcd.RES_S
  fault := hcd.fault
  DONE := rfl
  k := congrArg (· + 1) hcd.k
  accesses := hcd.accesses

@[simp] theorem Block.memWrites_DONE (b : Block p) (val : Nat → BitVec p.L) (is : List Nat) :
    (b.memWrites val is).DONE = b.DONE := by rw [Block.memWrites_eq]

/-- The order in which limbs are written, each with a value of its own, is not observable. -/
theorem Block.memWrites_sameButOrder (b : Block p) (val : Nat → BitVec p.L) {is js : List Nat} (hp : is.Perm js) :
    (b.memWrites val is).SameButOrder (b.memWrites val js) where
  limb j := by simp [hp.mem_iff]
  RES := by simp
  RES_S := by simp
  fault := by simp
  DONE := by simp
  k := by simp
  accesses := by simpa using (hp.map _).append_left b.accesses

/-! ### What each operation of a command does on the other build -/

variable (b : Block p) (o h : PlaceOrder)

theorem withOrders_memReads (i n : Nat) : (b.withOrders o h).memReads i n = (b.memReads i n).withOrders o h := by
  rw [Block.memReads_eq, Block.memReads_eq]; rfl

theorem withOrders_readField (s w : Nat) : (b.withOrders o h).readField s w = (b.readField s w).withOrders o h :=
  withOrders_memReads b o h _ _

theorem withOrders_memWrites (val : Nat → BitVec p.L) (is : List Nat) :
    (b.withOrders o h).memWrites val is = (b.memWrites val is).withOrders o h := by
  induction is generalizing b with
  | nil => rfl
  | cons i is ih => exact ih (b.memWrite i (val i))

theorem withOrders_accumulate (s w n : Nat) : accumulate (b.withOrders o h) s w n = accumulate b s w n := by
  induction n with
  | zero => rfl
  | succ n ih => rw [accumulate, ih]; rfl

theorem withOrders_extract (s w : Nat) : extract (b.withOrders o h) s w = extract b s w :=
  congrArg (BitVec.ofNat w) (withOrders_accumulate b o h s w _)

/-- An insertion is the one operation that reads an open order: the other build writes the same limbs with the same
values, in its own order. -/
theorem withOrders_writeField (s w : Nat) (x : BitVec w) : (b.withOrders o h).writeField s w x =
    ((b.readField s w).memWrites (insertedLimb b s w x) (writeOrder (buildWithOrders p o h) s w)).withOrders o h := by
  rw [Block.writeField, withOrders_readField]
  exact withOrders_memWrites _ o h _ _

/-- The order in which a SET writes the limbs of its range is not observable (41_bitrange.md R69; 20_memory.md R41). -/
theorem writeField_sameButOrder (s w : Nat) (x : BitVec w) : (b.writeField s w x).SameButOrder
    ((b.readField s w).memWrites (insertedLimb b s w x) (writeOrder (buildWithOrders p o h) s w)) :=
  Block.memWrites_sameButOrder _ _ ((writeOrder_perm p s w).trans (writeOrder_perm (buildWithOrders p o h) s w).symm)

/-- The checks of a command read no open order. -/
theorem withOrders_commandCheck (p : Params) (o h : PlaceOrder) (i : Instr) :
    commandCheck (buildWithOrders p o h) i = commandCheck p i := by cases i <;> rfl

/-- The body of a command on the other build: for a SET the same up to the order of its writes, for every other
command the very same. -/
theorem withOrders_commandBody (i : Instr) : ∃ d : Block p,
    commandBody (b.withOrders o h) i = d.withOrders o h ∧ (commandBody b i).SameButOrder d := by
  cases i with
  | setU s w tw val => exact ⟨_, withOrders_writeField b o h s w _, writeField_sameButOrder b o h s w _⟩
  | setS s w tw val => exact ⟨_, withOrders_writeField b o h s w _, writeField_sameButOrder b o h s w _⟩
  | lcount | lwidth | getl _ | setl _ _ | mask _ _ => exact ⟨_, rfl, .refl _⟩
  | getU s w tw | getS s w tw =>
    refine ⟨_, ?_, .refl _⟩
    rw [commandBody, withOrders_readField, withOrders_extract]
    rfl
  | andB _ | orB _ | xorB _ | notS =>
    refine ⟨_, ?_, .refl _⟩
    rw [commandBody, withOrders_memReads]
    rfl
  | newv _ | newl _ => exact ⟨_, withOrders_memWrites b o h _ _, .refl _⟩

/-- Settles O47: the checks agree (`withOrders_commandCheck`), fault entry reads no order, and the bodies agree up to
the order of the accesses (`withOrders_commandBody`). -/
theorem openOrdersAreNotObservable : Obligations.OpenOrdersAreNotObservable := by
  unfold Obligations.OpenOrdersAreNotObservable
  intro p o h b i n hb q
  have ready_p : State.CMD_READY ⟨p, b, false, [], n⟩ = true := (State.ready_iff _).mpr ⟨rfl, hb⟩
  have ready_q : State.CMD_READY ⟨q, b.withOrders o h, false, [], n⟩ = true := (State.ready_iff _).mpr ⟨rfl, hb⟩
  have check_q := withOrders_commandCheck p o h i
  suffices ∃ c d : Block p, exec i ⟨p, b, false, [], n⟩ = .next ⟨p, c, false, [], n⟩ ∧
      exec i ⟨q, b.withOrders o h, false, [], n⟩ = .next ⟨q, d.withOrders o h, false, [], n⟩ ∧ c.SameButOrder d by
    obtain ⟨c, d, hc, hd, same⟩ := this
    exact ⟨c, d, hc, hd, same.limb, same.RES, same.RES_S, same.fault, same.DONE, same.k, same.accesses⟩
  cases hcheck : commandCheck p i with
  | some code =>
    exact ⟨_, b.takeFault code i.opcode.byte, exec_check_fails ready_p hcheck,
      exec_check_fails ready_q (check_q.trans hcheck), .refl _⟩
  | none =>
    obtain ⟨d, body_q, same⟩ := withOrders_commandBody b.accept o h i
    refine ⟨_, d.complete, exec_ok ready_p hcheck, ?_, same.complete⟩
    calc exec i ⟨q, b.withOrders o h, false, [], n⟩
        = .next ⟨q, (commandBody (b.accept.withOrders o h) i).complete, false, [], n⟩ :=
          exec_ok ready_q (check_q.trans hcheck)
      _ = .next ⟨q, d.complete.withOrders o h, false, [], n⟩ := by rw [body_q]; rfl

end Sys2Proof.Machine
end

section
/-! SUPPORT. Programming state (10_state.md): what one step can do, with the build (R16), STATUS and FCMD (R23, R24)
through every step, and the effect of a command as a function of the storage (R18). -/

namespace Sys2Proof.Machine

/-! ### What one step does, move by move (R28; 70_reset_and_hazards.md R101, R104) -/

/-- The ways a step leads from `s` to a next state, one per move of the host; an offer has two. `step_next_iff` ties
them to `step`. -/
inductive StepBy (s : State) : State → Prop where
  | idles (h : s.host = []) (hf : s.blk.fault = none) : StepBy s s
  | waits {c : Command s.p} {rest : List (HostMove s.p)} (h : s.host = .offer c :: rest) (hrst : s.RST = true)
      (hf : s.blk.fault = none) : StepBy s s
  | runs {c : Command s.p} {rest : List (HostMove s.p)} {t : State} (h : s.host = .offer c :: rest)
      (hr : s.CMD_READY = true) (ht : runCommand { s with host := rest } c = .next t) : StepBy s t
  | cutsOff {c : Command s.p} {rest : List (HostMove s.p)} (h : s.host = .offerThenReset c :: rest) :
      StepBy s (offerThenReset s c rest)
  | resets {rest : List (HostMove s.p)} (h : s.host = .assertReset :: rest) :
      StepBy s (State.assertReset { s with host := rest })
  | releases {rest : List (HostMove s.p)} (h : s.host = .releaseReset :: rest) :
      StepBy s (State.releaseReset { s with host := rest })
  | hostWrites {i : Fin s.p.N} {v : BitVec s.p.L} {rest : List (HostMove s.p)}
      (h : s.host = .writeLimb i v :: rest) : StepBy s (hostWrite { s with host := rest } i v)

section Steps

variable {s t : State} {c : Command s.p} {rest : List (HostMove s.p)}

theorem step_no_move (h : s.host = []) (hf : s.blk.fault = none) : step s = .next s := by
  unfold step
  rw [h]
  simp [idle, hf]

theorem step_offer_waits (h : s.host = .offer c :: rest) (hrst : s.RST = true) (hf : s.blk.fault = none) :
    step s = .next s := by
  unfold step
  rw [h]
  simp [offerCommand, hrst, hf]

theorem step_offerThenReset (h : s.host = .offerThenReset c :: rest) :
    step s = .next (offerThenReset s c rest) := by
  unfold step
  rw [h]

theorem step_assertReset (h : s.host = .assertReset :: rest) :
    step s = .next (State.assertReset { s with host := rest }) := by
  unfold step
  rw [h]

theorem step_releaseReset (h : s.host = .releaseReset :: rest) :
    step s = .next (State.releaseReset { s with host := rest }) := by
  unfold step
  rw [h]

theorem step_writeLimb {i : Fin s.p.N} {v : BitVec s.p.L} (h : s.host = .writeLimb i v :: rest) :
    step s = .next (hostWrite { s with host := rest } i v) := by
  unfold step
  rw [h]

/-- Everything a step can do when it answers a next state. -/
theorem step_next_iff : step s = .next t ↔ StepBy s t := by
  constructor
  · intro h
    match hh : s.host with
    | [] =>
      cases hf : s.blk.fault with
      | some r => simp [step, hh, idle, hf] at h
      | none => cases (step_no_move hh hf).symm.trans h; exact .idles hh hf
    | .offer c :: rest =>
      cases hf : s.blk.fault with
      | some r => rcases step_of_faulted hf h with h' | h' | h' | h' <;> simp [hh] at h'
      | none =>
        cases hrst : s.RST with
        | true => cases (step_offer_waits hh hrst hf).symm.trans h; exact .waits hh hrst hf
        | false =>
          have hr := s.ready_iff.mpr ⟨hrst, hf⟩
          exact .runs hh hr ((step_offer hh hr).symm.trans h)
    | .offerThenReset c :: rest => cases (step_offerThenReset hh).symm.trans h; exact .cutsOff hh
    | .assertReset :: rest => cases (step_assertReset hh).symm.trans h; exact .resets hh
    | .releaseReset :: rest => cases (step_releaseReset hh).symm.trans h; exact .releases hh
    | .writeLimb i v :: rest => cases (step_writeLimb hh).symm.trans h; exact .hostWrites hh
  · intro h
    cases h with
    | idles h hf => exact step_no_move h hf
    | waits h hrst hf => exact step_offer_waits h hrst hf
    | runs h hr ht => exact (step_offer h hr).trans ht
    | cutsOff h => exact step_offerThenReset h
    | resets h => exact step_assertReset h
    | releases h => exact step_releaseReset h
    | hostWrites h => exact step_writeLimb h

end Steps

/-! ### An accepted command, from its byte (R28; 60_exceptions.md R92) -/

/-- Of the 256 command bytes none decodes to an operation that has another byte (30_encoding.md R53, R54). -/
theorem no_byte_decodes_to_another : ((List.range 256).filter fun n =>
    (decodeByte (BitVec.ofNat 8 n)).toOption.any fun o => o.byte != BitVec.ofNat 8 n) = [] := by decide

/-- Only its own byte decodes to an operation: the converse of `decodeByte_byte`. -/
theorem byte_of_decodeByte {b : Byte} {o : Opcode} (h : decodeByte b = .ok o) : o.byte = b := by
  have hb := List.filter_eq_nil_iff.mp no_byte_decodes_to_another b.toNat (List.mem_range.mpr b.isLt)
  simpa [h, Except.toOption] using hb

/-- A decoded command runs its instruction. -/
theorem runCommand_ok {s : State} {c : Command s.p} {i : Instr} (h : decode c = .ok i) : runCommand s c = exec i s := by
  simp [runCommand, h]

/-- An illegal byte takes the fault. -/
theorem runCommand_error {s : State} {c : Command s.p} {e : IllegalByte} (h : decode c = .error e) :
    runCommand s c = .next (s.takeFault .illegalCmd c.CMD) := by
  simp [runCommand, h]

/-- An accepted command changes the block alone, and either completes without a fault or takes a fault with its own
command byte. -/
theorem runCommand_ready {s : State} (c : Command s.p) (hr : s.CMD_READY = true) :
    ∃ b : Block s.p, runCommand s c = .next { s with blk := b } ∧
      (b.fault = none ∨ ∃ code, b = s.blk.takeFault code c.CMD) := by
  obtain ⟨-, hf⟩ := s.ready_iff.mp hr
  cases hd : decode c with
  | error e => exact ⟨_, runCommand_error hd, .inr ⟨_, rfl⟩⟩
  | ok i =>
    rw [runCommand_ok hd]
    cases hc : commandCheck s.p i with
    | none => exact ⟨_, exec_ok hr hc, .inl (by simp [hf])⟩
    | some code =>
      obtain ⟨o, ho, rfl⟩ := decode_ok hd
      have hbyte : (assemble c o).opcode.byte = c.CMD := by rw [assemble_opcode, byte_of_decodeByte ho]
      exact ⟨_, exec_check_fails hr hc, .inr ⟨code, by rw [hbyte]⟩⟩

/-- A command offered into a reset leaves a block in reset, over some storage. -/
theorem exists_offerThenReset_eq (s : State) (c : Command s.p) (rest : List (HostMove s.p)) :
    ∃ (S : Memory s.p.L) (n : Nat), offerThenReset s c rest = ⟨s.p, Block.reset S, true, rest, n⟩ := by
  cases hr : s.CMD_READY with
  | false => exact ⟨s.blk.S, s.abandoned, by simp [offerThenReset, hr, State.assertReset]⟩
  | true =>
    obtain ⟨b, hb, -⟩ := runCommand_ready (s := { s with host := rest }) c hr
    exact ⟨_, _, by rw [offerThenReset, if_pos hr, abandonCommand_next hb]⟩

/-! ### Obligations about one step -/

/-- Settles O5: the offer is accepted (`step_offer`), and a decoded command runs its instruction. -/
theorem stepRunsTheDecodedInstruction : Obligations.StepRunsTheDecodedInstruction := by
  unfold Obligations.StepRunsTheDecodedInstruction
  intro s c rest i hh hr hd
  rw [step_offer hh hr]
  exact runCommand_ok hd

/-- Settles O37: the equations of `step` for an offer under reset, no move, and the host's own write. -/
theorem waitingIdleAndHostWrites : Obligations.WaitingIdleAndHostWrites := by
  unfold Obligations.WaitingIdleAndHostWrites
  refine ⟨fun s c rest => step_offer_waits, fun s => step_no_move, fun s i v rest hh => ?_⟩
  refine ⟨_, step_writeLimb hh, ?_, fun j hj => ?_, rfl⟩
  · simp [Block.limb]
  · simp [Block.limb, hj]

/-- Settles O39: a command changes the block alone (`exec_next`), and so does each way of a step but for RST, the
host's list and the count of abandoned commands. -/
theorem shapeNeverChanges : Obligations.ShapeNeverChanges := by
  unfold Obligations.ShapeNeverChanges
  constructor
  · intro i s t h
    obtain ⟨-, ⟨-, rfl⟩ | ⟨-, code, -, rfl⟩ | ⟨-, -, rfl⟩⟩ := exec_next h
    · rfl
    · rfl
    · rfl
  · intro s t h
    cases step_next_iff.mp h with
    | idles | waits | resets | releases | hostWrites => rfl
    | @runs c rest _ _ hr ht =>
      obtain ⟨b, hb, -⟩ := runCommand_ready (s := { s with host := rest }) c hr
      cases hb.symm.trans ht
      rfl
    | @cutsOff c rest =>
      obtain ⟨S, n, ht⟩ := exists_offerThenReset_eq s c rest
      rw [ht]

/-! ### STATUS and FCMD (R23, R24) -/

section StatusAndFcmd

variable {p : Params}

theorem statusWord_reservedBits (code : FaultCode) : (statusWord code).extractLsb' 1 3 = 0#3 := by
  cases code <;> decide

theorem statusWord_fcode (code : FaultCode) : ((statusWord code).extractLsb' 4 4).toNat = code.num := by
  cases code <;> decide

theorem statusWord_faultBit (code : FaultCode) : (statusWord code).getLsbD 0 = true := by
  cases code <;> decide

theorem FaultCode.num_le (code : FaultCode) : code.num ≤ 6 := by cases code <;> decide

theorem Block.STATUS_of_no_fault {b : Block p} (h : b.fault = none) : b.STATUS = 0x00#8 := by simp [Block.STATUS, h]

theorem Block.FCMD_of_no_fault {b : Block p} (h : b.fault = none) : b.FCMD = 0x00#8 := by simp [Block.FCMD, h]

theorem Block.STATUS_of_fault {b : Block p} {r : FaultRecord} (h : b.fault = some r) : b.STATUS = statusWord r.code := by
  simp [Block.STATUS, h]

theorem Block.FAULT_iff (b : Block p) : b.FAULT = true ↔ b.fault.isSome = true := by
  cases h : b.fault with
  | none => simp [Block.FAULT, Block.STATUS_of_no_fault h]
  | some r => simp [Block.FAULT, Block.STATUS_of_fault h, statusWord_faultBit]

theorem Block.FAULT_eq_false_iff (b : Block p) : b.FAULT = false ↔ b.fault = none := by
  rw [← Bool.not_eq_true, b.FAULT_iff]
  simp

/-- STATUS has its legal values alone (R23). -/
theorem Block.STATUS_legal (b : Block p) : b.STATUS.extractLsb' 1 3 = 0#3 ∧ b.FCODE.toNat ≤ 6 := by
  unfold Block.FCODE
  cases h : b.fault with
  | none => rw [Block.STATUS_of_no_fault h]; decide
  | some r =>
    rw [Block.STATUS_of_fault h, statusWord_fcode]
    exact ⟨statusWord_reservedBits _, r.code.num_le⟩

/-- STATUS and FCMD are views of the fault record alone (R29). -/
theorem Block.STATUS_FCMD_congr {b d : Block p} (h : b.fault = d.fault) :
    b.STATUS = d.STATUS ∧ b.FCMD = d.FCMD := by
  simp [Block.STATUS, Block.FCMD, h]

end StatusAndFcmd

/-- Settles O41: the values are read off the fault record; of the ways of a step (`StepBy`) only an accepted command can
enter a fault, with its own byte (`runCommand_ready`), and only the two moves that assert RST clear one. -/
theorem statusAndFcmdRegisters : Obligations.StatusAndFcmdRegisters := by
  unfold Obligations.StatusAndFcmdRegisters
  refine ⟨fun p b => ?_, rfl, rfl, fun s t h => ?_⟩
  · obtain ⟨reserved, fcode⟩ := b.STATUS_legal
    refine ⟨reserved, fcode, fun hF => ?_, b.FAULT_iff⟩
    have hf := b.FAULT_eq_false_iff.mp hF
    exact ⟨Block.STATUS_of_no_fault hf, Block.FCMD_of_no_fault hf⟩
  · cases step_next_iff.mp h with
    | idles | waits | releases | hostWrites => exact .inl ⟨rfl, rfl⟩
    | resets hh => exact .inr (.inr ⟨rfl, rfl, .inl ⟨_, hh⟩⟩)
    | @cutsOff c rest hh =>
      obtain ⟨S, n, ht⟩ := exists_offerThenReset_eq s c rest
      rw [ht]
      exact .inr (.inr ⟨rfl, rfl, .inr ⟨c, rest, hh⟩⟩)
    | @runs c rest _ hh hr ht =>
      obtain ⟨-, hf⟩ := s.ready_iff.mp hr
      obtain ⟨b, hb, hfault⟩ := runCommand_ready (s := { s with host := rest }) c hr
      cases hb.symm.trans ht
      obtain hnone | ⟨code, rfl⟩ := hfault
      · exact .inl (Block.STATUS_FCMD_congr (hnone.trans hf.symm))
      · exact .inr (.inl ⟨s.blk.FAULT_eq_false_iff.mpr hf, (Block.FAULT_iff _).mpr rfl, c, rest, hh, rfl⟩)

/-! ### The effect of a command is a function of the storage (R18)

Two blocks `b` and `d` of one build with the same storage: every value a command reads, writes or computes is the
same in both. -/

section SameStorage

variable {p : Params} {b d : Block p}

theorem Block.limb_congr (h : b.S = d.S) (i : Nat) : b.limb i = d.limb i := congrArg (·.read i) h

theorem Block.memWrites_S_congr (h : b.S = d.S) (val : Nat → BitVec p.L) (is : List Nat) :
    (b.memWrites val is).S = (d.memWrites val is).S := by
  induction is generalizing b d with
  | nil => exact h
  | cons i is ih => exact ih (congrArg (·.write i (val i)) h)

theorem accumulate_congr (h : b.S = d.S) (s w n : Nat) : accumulate b s w n = accumulate d s w n := by
  induction n with
  | zero => rfl
  | succ n ih => rw [accumulate, accumulate, ih, fieldPart, fieldPart, Block.limb_congr h]

theorem extract_congr (h : b.S = d.S) (s w : Nat) : extract b s w = extract d s w :=
  congrArg (BitVec.ofNat w) (accumulate_congr h s w _)

theorem insertedLimb_congr (h : b.S = d.S) (s w : Nat) (x : BitVec w) : insertedLimb b s w x = insertedLimb d s w x := by
  funext i
  rw [insertedLimb, insertedLimb, Block.limb_congr h]

theorem Block.writeField_S_congr (h : b.S = d.S) (s w : Nat) (x : BitVec w) :
    (b.writeField s w x).S = (d.writeField s w x).S := by
  rw [Block.writeField, Block.writeField, insertedLimb_congr h]
  exact Block.memWrites_S_congr (by simpa using h) _ _

theorem commandBody_S_congr (h : b.S = d.S) (i : Instr) : (commandBody b i).S = (commandBody d i).S := by
  cases i with
  | lcount | lwidth | getl _ | mask _ _ => exact h
  | getU _ _ _ | getS _ _ _ | andB _ | orB _ | xorB _ | notS => simpa [commandBody] using h
  | setl idx val => exact congrArg (·.write idx (valLimb p val)) h
  | setU _ _ _ _ | setS _ _ _ _ => exact Block.writeField_S_congr h _ _ _
  | newv _ | newl _ => exact Block.memWrites_S_congr h _ _

/-- A command writes RES with a value that the storage fixes, or leaves it. -/
theorem commandBody_RES_congr (h : b.S = d.S) (i : Instr) :
    (commandBody b i).RES = (commandBody d i).RES ∨
      ((commandBody b i).RES = b.RES ∧ (commandBody d i).RES = d.RES) := by
  cases i with
  | lcount | lwidth => exact .inl rfl
  | getl idx => exact .inl (by simp [commandBody, Block.limb_congr h])
  | getU _ _ _ | getS _ _ _ => exact .inl (by simp [commandBody, extract_congr h])
  | setl _ _ | mask _ _ => exact .inr ⟨rfl, rfl⟩
  | setU _ _ _ _ | setS _ _ _ _ | andB _ | orB _ | xorB _ | notS | newv _ | newl _ =>
    exact .inr (by simp [commandBody])

/-- A command writes RES_S with a value that the storage fixes, or leaves it. -/
theorem commandBody_RES_S_congr (h : b.S = d.S) (i : Instr) :
    (commandBody b i).RES_S = (commandBody d i).RES_S ∨
      ((commandBody b i).RES_S = b.RES_S ∧ (commandBody d i).RES_S = d.RES_S) := by
  cases i with
  | mask _ _ => exact .inl rfl
  | andB _ | orB _ | xorB _ | notS => exact .inl (by simp [commandBody, Block.limb_congr h])
  | lcount | lwidth | getl _ | setl _ _ => exact .inr ⟨rfl, rfl⟩
  | getU _ _ _ | getS _ _ _ | setU _ _ _ _ | setS _ _ _ _ | newv _ | newl _ => exact .inr (by simp [commandBody])

end SameStorage

/-- Settles O38: the checks of a command read the build alone, so both blocks take the same fault or both run the body,
whose storage and result registers the storage fixes. -/
theorem commandsReadOnlyTheStorage : Obligations.CommandsReadOnlyTheStorage := by
  unfold Obligations.CommandsReadOnlyTheStorage
  intro s d i hr hd hS
  obtain ⟨hrst, hf⟩ := s.ready_iff.mp hr
  have hrd : State.CMD_READY { s with blk := d } = true := (State.ready_iff _).mpr ⟨hrst, hd⟩
  cases hc : commandCheck s.p i with
  | some code =>
    exact ⟨_, _, exec_check_fails hr hc, exec_check_fails hrd hc, hS.symm, rfl, .inr ⟨rfl, rfl⟩, .inr ⟨rfl, rfl⟩⟩
  | none =>
    have same : s.blk.accept.S = d.accept.S := hS.symm
    exact ⟨_, _, exec_ok hr hc, exec_ok hrd hc, commandBody_S_congr same i, by simp [hf, hd],
      commandBody_RES_congr same i, commandBody_RES_S_congr same i⟩

end Sys2Proof.Machine
end

section
/-! SUPPORT. Memory (20_memory.md): the order of bits and limbs (R31), the limbs each command accesses (R37), and the
invariant through every step: the storage in canonical form, every access inside it (R34, R47), fault records that
fault entry can have written (60_exceptions.md R87, R91, R92), and reset values under RST (70_reset_and_hazards.md
R101). -/

namespace Sys2Proof.Machine

/-! ### Bit and limb order (R31) -/

theorem Block.sintTo_eq_sum {p : Params} (b : Block p) (n : Nat) :
    b.sintTo n = ∑ i ∈ Finset.range n, (b.limb i).toNat * 2 ^ (i * p.L) := by
  induction n with
  | zero => rfl
  | succ n ih => rw [Block.sintTo, ih, Finset.sum_range_succ]

/-- Settles O40: `Sint` is the sum that defines it (`Block.sintTo_eq_sum`), and its bits below `T` are the bits of the
storage (`Block.sint_testBit`). -/
theorem bitOrderOfTheStorage : Obligations.BitOrderOfTheStorage := by
  unfold Obligations.BitOrderOfTheStorage
  intro p b
  refine ⟨b.sintTo_eq_sum p.N, b.sint_lt, fun j hj => ?_⟩
  rw [b.sint_testBit, decide_eq_true hj, Bool.true_and, Block.bit]

/-! ### The limbs each command reads and writes (R37) -/

section LimbsAccessed

variable {p : Params}

/-- The storage after a command: the limbs of the column "limbs written" of R37 take new values, in some order. -/
theorem commandBody_S_eq_memWrites (b : Block p) (i : Instr) :
    ∃ (order : List Nat) (v : Nat → BitVec p.L), order.Perm (limbsWritten p i) ∧
      (commandBody b i).S = (b.memWrites v order).S := by
  have insertion : ∀ (s w : Nat) (x : BitVec w), ∃ (order : List Nat) (v : Nat → BitVec p.L),
      order.Perm (rangeLimbs p s w) ∧ (b.writeField s w x).S = (b.memWrites v order).S := fun s w x =>
    ⟨_, _, writeOrder_perm p s w, Block.memWrites_S_congr (b.readField_S s w) (insertedLimb b s w x) _⟩
  cases i with
  | lcount | lwidth | getl _ | mask _ _ => exact ⟨[], fun _ => 0, .refl _, rfl⟩
  | getU _ _ _ | getS _ _ _ | andB _ | orB _ | xorB _ | notS =>
    exact ⟨[], fun _ => 0, .refl _, by simp [commandBody, Block.memWrites]⟩
  | setl idx val => exact ⟨[idx], fun _ => valLimb p val, .refl _, rfl⟩
  | setU s w tw val | setS s w tw val => exact insertion s w _
  | newv _ | newl _ => exact ⟨_, _, .refl _, rfl⟩

/-- The limbs that R37 does not list as written stay. -/
theorem commandBody_limb_of_not_written (b : Block p) {i : Instr} {j : Nat} (hj : j ∉ limbsWritten p i) :
    (commandBody b i).limb j = b.limb j := by
  obtain ⟨order, v, hperm, hS⟩ := commandBody_S_eq_memWrites b i
  have hj' : j ∉ order := fun h => hj (hperm.mem_iff.mp h)
  rw [Block.limb_congr hS, Block.memWrites_limb, if_neg hj']

end LimbsAccessed

/-- Settles O31: a command that fails a check accesses nothing; the accesses of every other command are its reads and
its writes (`commandBody_accesses`), and the limbs not written stay (`commandBody_limb_of_not_written`). -/
theorem limbsAccessedPerCommand : Obligations.LimbsAccessedPerCommand := by
  unfold Obligations.LimbsAccessedPerCommand
  intro s i hr
  obtain ⟨-, hf⟩ := s.ready_iff.mp hr
  cases hc : commandCheck s.p i with
  | some code =>
    refine ⟨s.blk.takeFault code i.opcode.byte, exec_check_fails hr hc, fun h => ?_, fun _ => ⟨rfl, fun _ => rfl⟩⟩
    cases h
  | none =>
    obtain ⟨order, v, hperm, hacc⟩ := commandBody_accesses s.blk.accept i
    refine ⟨_, exec_ok hr hc, fun _ => ⟨?_, ?_, fun j hj => ?_⟩, fun h => absurd (by simp [hf]) h⟩
    · simp [hacc]
    · simpa [hacc] using hperm
    · exact commandBody_limb_of_not_written s.blk.accept hj

/-! ### A command that passes its checks stays inside the storage (R34) -/

section InsideTheStorage

variable {p : Params}

/-- `limbSpan_le` for the limbs that R37 names. -/
theorem lt_of_mem_rangeLimbs {s w j : Nat} (hw : 1 ≤ w) (h : s + w ≤ p.T) (hj : j ∈ rangeLimbs p s w) : j < p.N :=
  (List.mem_range'_1.mp hj).2.trans_le (limbSpan_le hw h)

/-- A command that passes its checks accesses limbs of the storage alone. -/
theorem lt_of_mem_limbs {i : Instr} {j : Nat} (hc : commandCheck p i = none)
    (hj : j ∈ limbsRead p i ∨ j ∈ limbsWritten p i) : j < p.N := by
  cases i with
  | lcount | lwidth | mask _ _ => simp [limbsRead, limbsWritten] at hj
  | getl _ | setl _ _ =>
    have hidx := checkIndex_none.mp hc
    simp only [limbsRead, limbsWritten, List.mem_singleton, List.not_mem_nil, or_false, false_or] at hj
    rwa [hj]
  | getU _ _ _ | getS _ _ _ =>
    obtain ⟨-, hw, hT⟩ := checkField_none.mp hc
    simp only [limbsRead, limbsWritten, List.not_mem_nil, or_false] at hj
    exact lt_of_mem_rangeLimbs hw hT hj
  | setU _ _ _ _ | setS _ _ _ _ =>
    obtain ⟨-, hw, hT⟩ := checkField_none.mp hc
    exact lt_of_mem_rangeLimbs hw hT (or_self_iff.mp hj)
  | andB _ | orB _ | xorB _ | notS | newv _ | newl _ => simpa [limbsRead, limbsWritten] using hj

theorem commandBody_wf {b : Block p} {i : Instr} (hc : commandCheck p i = none) (h : b.S.wf p.N = true) :
    (commandBody b i).S.wf p.N = true := by
  obtain ⟨order, v, hperm, hS⟩ := commandBody_S_eq_memWrites b i
  rw [hS]
  exact Block.memWrites_wf v (fun j hj => lt_of_mem_limbs hc (.inr (hperm.mem_iff.mp hj))) h

theorem commandBody_accesses_in {b : Block p} {i : Instr} (hc : commandCheck p i = none) (hb : b.accesses = [])
    {a : Access p.L} (ha : a ∈ (commandBody b i).accesses) : a.idx < p.N := by
  obtain ⟨order, v, hperm, hacc⟩ := commandBody_accesses b i
  rw [hacc, hb, List.nil_append, List.mem_append, List.mem_map, List.mem_map] at ha
  obtain ⟨j, hj, rfl⟩ | ⟨j, hj, rfl⟩ := ha
  · exact lt_of_mem_limbs hc (.inl hj)
  · exact lt_of_mem_limbs hc (.inr (hperm.mem_iff.mp hj))

end InsideTheStorage

/-! ### Which code a check answers (60_exceptions.md R87) -/

section FaultCodes

variable {p : Params} {code : FaultCode}

theorem checkRange_some {s w : Nat} (h : checkRange p s w = some code) : code = .zeroWidth ∨ code = .range := by
  unfold checkRange at h
  split at h
  · cases h; exact .inl rfl
  · split at h
    · cases h; exact .inr rfl
    · cases h

theorem checkField_some {s w tw : Nat} (h : checkField p s w tw = some code) :
    code = .targetWidth ∨ code = .zeroWidth ∨ code = .range := by
  unfold checkField at h
  split at h
  · cases h; exact .inl rfl
  · exact .inr (checkRange_some h)

theorem checkIndex_some {idx : Nat} (h : checkIndex p idx = some code) : code = .limbIndex := by
  unfold checkIndex at h
  split at h
  · cases h; rfl
  · cases h

theorem checkShape_some {B : StorageValue} (h : checkShape p B = some code) : code = .shape := by
  unfold checkShape at h
  split at h
  · cases h; rfl
  · cases h

/-- The checks of a command answer no code but those that R87 lets the command raise. -/
theorem raisedBy_of_commandCheck {i : Instr} (h : commandCheck p i = some code) : code.raisedBy i.opcode = true := by
  cases i with
  | lcount | lwidth | notS | newv _ => cases h
  | getl _ | setl _ _ => rw [checkIndex_some h]; rfl
  | getU _ _ _ | getS _ _ _ | setU _ _ _ _ | setS _ _ _ _ =>
    obtain rfl | rfl | rfl := checkField_some h <;> rfl
  | mask _ _ => obtain rfl | rfl := checkRange_some h <;> rfl
  | andB _ | orB _ | xorB _ | newl _ => rw [checkShape_some h]; rfl

/-- The record of an illegal byte is legal (R88). -/
theorem FaultRecord.Legal.illegalCmd {cmd : Byte} {e : IllegalByte} (h : decodeByte cmd = .error e) :
    FaultRecord.Legal ⟨.illegalCmd, cmd⟩ := by
  simp [FaultRecord.Legal, h]

/-- The record of a code with the byte of an operation that raises it is legal (R87). -/
theorem FaultRecord.Legal.of_raisedBy {o : Opcode} (h : code.raisedBy o = true) :
    FaultRecord.Legal ⟨code, o.byte⟩ := by
  simp [FaultRecord.Legal, decodeByte_byte, h]

end FaultCodes

/-! ### The invariant of the block through each operation -/

section BlockInvariant

variable {p : Params} {b : Block p}

theorem Block.Inv.reset {S : Memory p.L} (hS : S.wf p.N = true) : (Block.reset S : Block p).Inv where
  storage_wf := hS
  accesses_in := by simp
  fault_legal := by simp
  fault_done := by simp

/-- Fault entry keeps the invariant when the record it writes is legal: it has accessed no limb (R91). -/
theorem Block.Inv.takeFault (hb : b.Inv) {code : FaultCode} {cmd : Byte} (legal : FaultRecord.Legal ⟨code, cmd⟩) :
    (b.takeFault code cmd).Inv where
  storage_wf := hb.storage_wf
  accesses_in := by simp
  fault_legal := by simpa using legal
  fault_done := by simp

/-- A command that passes its checks keeps the invariant. -/
theorem Block.Inv.command (hb : b.Inv) (hf : b.fault = none) {i : Instr} (hc : commandCheck p i = none) :
    (commandBody b.accept i).complete.Inv where
  storage_wf := commandBody_wf (b := b.accept) hc hb.storage_wf
  accesses_in _ := commandBody_accesses_in (b := b.accept) hc rfl
  fault_legal := by simp [hf]
  fault_done := by simp [hf]

/-- A write of the host's own storage keeps the invariant: it is no access of the block, and touches no register. -/
theorem Block.Inv.setS (hb : b.Inv) {S : Memory p.L} (hS : S.wf p.N = true) : Block.Inv { b with S := S } where
  storage_wf := hS
  accesses_in := hb.accesses_in
  fault_legal := hb.fault_legal
  fault_done := hb.fault_done

end BlockInvariant

/-! ### The invariant of the machine through each way of a step -/

section StateInvariant

variable {s t : State}

/-- A block in reset over a canonical storage meets the invariant, whatever RST and the host do. -/
theorem State.Inv.of_reset {p : Params} {S : Memory p.L} (hS : S.wf p.N = true) (RST : Bool)
    (host : List (HostMove p)) (n : Nat) : State.Inv ⟨p, Block.reset S, RST, host, n⟩ where
  blk_inv := .reset hS
  reset_held _ := rfl

/-- An accepted command keeps the invariant: an illegal byte and a failed check enter a fault with a legal record, and
every other command stays inside the storage. -/
theorem runCommand_inv {c : Command s.p} (hr : s.CMD_READY = true) (hs : s.blk.Inv) (ht : runCommand s c = .next t) :
    t.Inv := by
  obtain ⟨hrst, hf⟩ := s.ready_iff.mp hr
  suffices ∃ b : Block s.p, runCommand s c = .next { s with blk := b } ∧ b.Inv by
    obtain ⟨b, hb, hinv⟩ := this
    cases hb.symm.trans ht
    exact ⟨hinv, fun h => absurd (hrst.symm.trans h) Bool.false_ne_true⟩
  cases hd : decode c with
  | error e =>
    obtain ⟨e', he'⟩ := decode_error.mp ⟨e, hd⟩
    exact ⟨_, runCommand_error hd, hs.takeFault (.illegalCmd he')⟩
  | ok i =>
    rw [runCommand_ok hd]
    cases hc : commandCheck s.p i with
    | some code =>
      exact ⟨_, exec_check_fails hr hc, hs.takeFault (.of_raisedBy (raisedBy_of_commandCheck hc))⟩
    | none => exact ⟨_, exec_ok hr hc, hs.command hf hc⟩

/-- A command offered into a reset leaves a block in reset over a storage in canonical form, torn or not. -/
theorem offerThenReset_inv (c : Command s.p) (rest : List (HostMove s.p)) (hS : s.blk.S.wf s.p.N = true) :
    (offerThenReset s c rest).Inv := by
  cases hr : s.CMD_READY with
  | false =>
    rw [offerThenReset, hr]
    exact .of_reset hS true rest s.abandoned
  | true =>
    obtain ⟨b, hb, -⟩ := runCommand_ready (s := { s with host := rest }) c hr
    rw [offerThenReset, if_pos hr, abandonCommand_next hb]
    exact .of_reset (tornStorage_wf _ _ (Nat.le_refl _) hS) true rest _

/-- The host's own write keeps the invariant, and what RST holds besides the storage. -/
theorem hostWrite_inv (hs : s.Inv) (i : Fin s.p.N) (v : BitVec s.p.L) : (hostWrite s i v).Inv where
  blk_inv := hs.blk_inv.setS (Memory.wf_write v i.isLt hs.blk_inv.storage_wf)
  reset_held hrst := congrArg (fun b => { b with S := s.blk.S.write i v }) (hs.reset_held hrst)

end StateInvariant

/-- Settles O44, by the ways of a step (`StepBy`): a command that runs (`runCommand_inv`) or is cut off
(`offerThenReset_inv`), RST asserted or released, the host's own write (`hostWrite_inv`), or no change. -/
theorem everyStepKeepsTheInvariant : Obligations.EveryStepKeepsTheInvariant := by
  unfold Obligations.EveryStepKeepsTheInvariant
  intro s t hs h
  cases step_next_iff.mp h with
  | idles | waits => exact hs
  | @runs c rest _ _ hr ht => exact runCommand_inv (s := { s with host := rest }) hr hs.blk_inv ht
  | @cutsOff c rest => exact offerThenReset_inv c rest hs.blk_inv.storage_wf
  | @resets rest => exact .of_reset hs.blk_inv.storage_wf true rest s.abandoned
  | releases => exact ⟨hs.blk_inv, fun h => absurd h Bool.false_ne_true⟩
  | @hostWrites i v rest => exact hostWrite_inv (s := { s with host := rest }) ⟨hs.blk_inv, hs.reset_held⟩ i v

end Sys2Proof.Machine
end

section
/-! SUPPORT. Encoding (30_encoding.md): the opcode map (R53) and the illegal bytes (R54), the operand fields that a
format names (R48, R51), encoding as the inverse of decoding, and the effects of the pseudo-instructions (R57). -/

namespace Sys2Proof

variable {p : Params}

/-! ### Decoding from the command byte (R53, R54) -/

/-- A command with the byte of an operation decodes to that operation with the command's operand fields. -/
theorem decode_of_byte {c : Command p} (o : Opcode) (h : c.CMD = o.byte) : decode c = .ok (assemble c o) := by
  simp [decode, h, decodeByte_byte]

/-- The bytes that decode are the bytes of the 15 operations. -/
theorem exists_decode_ok_iff {c : Command p} : (∃ i, decode c = .ok i) ↔ ∃ o : Opcode, c.CMD = o.byte := by
  constructor
  · rintro ⟨i, h⟩
    obtain ⟨o, ho, -⟩ := decode_ok h
    exact ⟨o, (Machine.byte_of_decodeByte ho).symm⟩
  · rintro ⟨o, h⟩
    exact ⟨_, decode_of_byte o h⟩

/-- The 15 operations, in the order of their command bytes. -/
def Opcode.all : List Opcode :=
  [.lcount, .lwidth, .getl, .setl, .getU, .setU, .mask, .andB, .orB, .xorB, .notS, .newv, .newl, .getS, .setS]

theorem Opcode.mem_all (o : Opcode) : o ∈ Opcode.all := by cases o <;> decide

/-- The bytes of the operations, as a list. -/
theorem exists_eq_opcode_byte_iff {b : Byte} : (∃ o : Opcode, b = o.byte) ↔ b ∈ Opcode.all.map Opcode.byte := by
  simp [Opcode.mem_all, eq_comm]

/-- The bytes that the opcode map does not list are those that meet one of the three conditions of R54. -/
theorem not_mem_opcode_bytes_iff : ∀ b : Byte, b ∉ Opcode.all.map Opcode.byte ↔
    (b.extractLsb' 5 3 ≠ 0#3 ∨ b.extractLsb' 0 4 ∈ [0xD#4, 0xE#4, 0xF#4] ∨
      (b.getLsbD 4 = true ∧ b.extractLsb' 0 4 ∉ [0x4#4, 0x5#4])) :=
  by decide

/-- Decoding is total: a command that does not decode to an instruction is rejected. -/
theorem exists_decode_error_iff {c : Command p} : (∃ e, decode c = .error e) ↔ ¬ ∃ i, decode c = .ok i := by
  cases decode c <;> simp

/-! ### The operand fields that a format names (R48, R51) -/

/-- Two commands hold the same value in an operand field. -/
def Command.SameField (c d : Command p) : OperandField → Prop
  | .START => d.START = c.START
  | .WIDTH => d.WIDTH = c.WIDTH
  | .TW => d.TW = c.TW
  | .VAL => d.VAL = c.VAL
  | .IDX => d.IDX = c.IDX
  | .B => d.B = c.B

/-- The instruction of an operation is made of the fields that its format names. -/
theorem assemble_congr {c d : Command p} {o : Opcode} (h : ∀ f ∈ o.format.fields, c.SameField d f) :
    assemble d o = assemble c o := by
  cases o with
  | lcount | lwidth | notS => rfl
  | getl | setl | newv | andB | orB | xorB | newl | mask | getU | getS | setU | setS =>
    simp_all [Opcode.format, Format.fields, Command.SameField, assemble]

/-! ### The widths of the operand ports (R50; 10_state.md R19) -/

@[simp] theorem Params.fitsPW_toNat (v : BitVec p.PW) : p.fitsPW v.toNat = true := decide_eq_true v.isLt
@[simp] theorem Params.fitsTWB_toNat (v : BitVec p.TWB) : p.fitsTWB v.toNat = true := decide_eq_true v.isLt
@[simp] theorem Params.fitsDW_toNat (v : BitVec p.DW) : p.fitsDW v.toNat = true := decide_eq_true v.isLt

theorem Params.one_le_DW (p : Params) : 1 ≤ p.DW := p.L_pos.trans p.L_le_DW

theorem Params.mod_of_fitsPW {n : Nat} (h : p.fitsPW n = true) : n % 2 ^ p.PW = n :=
  Nat.mod_eq_of_lt (of_decide_eq_true h)
theorem Params.mod_of_fitsTWB {n : Nat} (h : p.fitsTWB n = true) : n % 2 ^ p.TWB = n :=
  Nat.mod_eq_of_lt (of_decide_eq_true h)
theorem Params.mod_of_fitsDW {n : Nat} (h : p.fitsDW n = true) : n % 2 ^ p.DW = n :=
  Nat.mod_eq_of_lt (of_decide_eq_true h)

/-! ### Encoding as the inverse of reading the fields (R49, R50) -/

/-- The operand fields of an instruction read from the port fit the port. -/
theorem assemble_wellFormed (c : Command p) (o : Opcode) : (assemble c o).WellFormed p = true := by
  cases o with
  | lcount | lwidth | notS | andB | orB | xorB | newl => rfl
  | getl | setl | newv | mask | getU | getS | setU | setS => simp [assemble, Instr.WellFormed]

/-- Encoding puts every field that the format names back to the value it was read with. -/
theorem encode_assemble_sameField (c : Command p) (o : Opcode) :
    ∀ f ∈ o.format.fields, c.SameField (encode p (assemble c o)) f := by
  cases o with
  | lcount | lwidth | notS => simp [Opcode.format, Format.fields]
  | getl | setl | newv | andB | orB | xorB | newl | mask | getU | getS | setU | setS =>
    simp [Opcode.format, Format.fields, Command.SameField, assemble, encode]

/-- A well-formed instruction is read back from the fields of its encoding: none is cut by its port. -/
theorem assemble_encode {i : Instr} (h : i.WellFormed p = true) : assemble (encode p i) i.opcode = i := by
  cases i with
  | lcount | lwidth | notS | andB _ | orB _ | xorB _ | newl _ => rfl
  | getl _ | setl _ _ | newv _ | mask _ _ | getU _ _ _ | getS _ _ _ | setU _ _ _ _ | setS _ _ _ _ =>
    simp_all [Instr.WellFormed, Instr.opcode, encode, assemble, Params.mod_of_fitsPW, Params.mod_of_fitsTWB,
      Params.mod_of_fitsDW]

/-! ### Obligations about decoding and encoding -/

/-- Settles O3: an encoding carries its operation's byte (`encode_CMD`) and every operand (`assemble_encode`); back, the
byte fixes the operation (`byte_of_decodeByte`) and each named field is the one read (`encode_assemble_sameField`). -/
theorem decodeAndEncodeAgree : Obligations.DecodeAndEncodeAgree := by
  unfold Obligations.DecodeAndEncodeAgree
  constructor
  · intro p i hwf
    rw [decode_of_byte i.opcode (encode_CMD p i), assemble_encode hwf]
  · intro p c i h
    obtain ⟨o, ho, rfl⟩ := decode_ok h
    have same := encode_assemble_sameField c o
    rw [encode_CMD, assemble_opcode]
    exact ⟨assemble_wellFormed c o, Machine.byte_of_decodeByte ho, same .START, same .WIDTH, same .TW, same .VAL,
      same .IDX, same .B⟩

/-- Settles O1: each row of the map is its operation with the fields of the command (`decode_of_byte`). -/
theorem opcodeMapDecodes : Obligations.OpcodeMapDecodes := by
  unfold Obligations.OpcodeMapDecodes
  refine ⟨fun p c => ?_, by decide⟩
  exact ⟨decode_of_byte .lcount, decode_of_byte .lwidth, decode_of_byte .getl, decode_of_byte .setl,
    decode_of_byte .getU, decode_of_byte .getS, decode_of_byte .setU, decode_of_byte .setS, decode_of_byte .mask,
    decode_of_byte .andB, decode_of_byte .orB, decode_of_byte .xorB, decode_of_byte .notS, decode_of_byte .newv,
    decode_of_byte .newl⟩

/-- Settles O2: the bytes that decode are those of the map (`exists_decode_ok_iff`), the others meet a condition of R54
(`not_mem_opcode_bytes_iff`), and an accepted one is fault entry (`runCommand_error`), which keeps the storage and
the results. -/
theorem illegalBytesRaiseIllegalCmd : Obligations.IllegalBytesRaiseIllegalCmd := by
  unfold Obligations.IllegalBytesRaiseIllegalCmd
  constructor
  · intro p c
    have legal := (exists_decode_ok_iff (c := c)).trans exists_eq_opcode_byte_iff
    refine ⟨exists_decode_error_iff.trans ((not_congr legal).trans (not_mem_opcode_bytes_iff c.CMD)), legal,
      fun i h => ?_⟩
    obtain ⟨o, ho, rfl⟩ := decode_ok h
    rw [assemble_opcode, Machine.byte_of_decodeByte ho]
  · rintro s c rest hh hr ⟨e, he⟩
    have status : Machine.statusWord .illegalCmd = 0x11#8 := by decide
    refine ⟨s.blk.takeFault .illegalCmd c.CMD, ?_, rfl, status, rfl, rfl, rfl, rfl, rfl, rfl⟩
    rw [Machine.step_offer hh hr]
    exact Machine.runCommand_error (s := { s with host := rest }) he

/-- Settles O4: the equal byte fixes the operation, and the operation reads the named fields alone
(`assemble_congr`). -/
theorem unnamedFieldsAreIgnored : Obligations.UnnamedFieldsAreIgnored := by
  unfold Obligations.UnnamedFieldsAreIgnored
  intro p c d o ho hCMD START WIDTH TW VAL IDX B
  have hbyte := Machine.byte_of_decodeByte ho
  rw [decode_of_byte o (hCMD.trans hbyte.symm), decode_of_byte o hbyte.symm]
  congr 1
  refine assemble_congr fun f hf => ?_
  cases f with
  | START => exact START hf
  | WIDTH => exact WIDTH hf
  | TW => exact TW hf
  | VAL => exact VAL hf
  | IDX => exact IDX hf
  | B => exact B hf

end Sys2Proof

namespace Sys2Proof.Machine

variable {p : Params}

/-! ### One-bit values of `VAL` and of a field (R52; 41_bitrange.md R65) -/

/-- `VAL[TW-1:0]` for a legal target width. -/
theorem valSlice_eq_ofNat {val tw : Nat} (h : tw ≤ p.DW) : valSlice p val tw = BitVec.ofNat tw val := by
  simp [valSlice, valWord, BitVec.setWidth_ofNat_of_le h]

/-- An unsigned value keeps its bits at another width, as far as they fit. -/
theorem resizeU_getLsbD {n : Nat} (m : Nat) (v : BitVec n) (j : Nat) :
    (resizeU m v).getLsbD j = (decide (j < m) && v.getLsbD j) := by
  simp [resizeU, BitVec.getLsbD]

/-- The one-bit value 1 is -1 when signed, so it fills any width with ones. -/
theorem resizeS_one_getLsbD (m j : Nat) : (resizeS m 1#1).getLsbD j = decide (j < m) := by
  have minus_one : (1#1).toInt = -1 := by decide
  rw [resizeS, minus_one, BitVec.ofInt_neg]
  simp [BitVec.neg_one_eq_allOnes]

/-- A field of one bit is that bit. -/
theorem extract_one (b : Block p) (n : Nat) : extract b n 1 = BitVec.ofBool (b.bit n) := by
  apply BitVec.eq_of_getLsbD_eq
  intro j hj
  obtain rfl : j = 0 := by omega
  rw [extract_getLsbD b (le_refl 1)]
  simp

/-- A field of one bit, brought to the width of `RES`, is 0 or 1. -/
theorem extract_one_zext (b : Block p) (n m : Nat) :
    (resizeU 1 (extract b n 1)).setWidth m = BitVec.ofNat m (b.bit n).toNat := by
  rw [extract_one]
  apply BitVec.eq_of_toNat_eq
  simp [resizeU, Nat.mod_eq_of_lt (b.bit n).toNat_lt]

/-! ### The effects of the commands behind the pseudo-instructions (R57) -/

/-- A storage of zero limbs holds the integer 0. -/
theorem Block.sint_eq_zero {b : Block p} (h : ∀ i < p.N, b.limb i = 0#p.L) : b.sint = 0 := by
  rw [Block.sint, Block.sintTo_eq_sum]
  exact Finset.sum_eq_zero fun i hi => by simp [h i (Finset.mem_range.mp hi)]

/-- An accepted command that passes its checks and inserts a field changes the bits of that field alone. -/
theorem exec_insert_bit {s : State} {i : Instr} {start width : Nat} {x : BitVec width} (hr : s.CMD_READY = true)
    (hc : commandCheck s.p i = none) (hw : 1 ≤ width)
    (hbody : commandBody s.blk.accept i = s.blk.accept.writeField start width x) :
    ∃ b : Block s.p, exec i s = .next { s with blk := b } ∧
      ∀ j, b.bit j = if start ≤ j ∧ j < start + width then x.getLsbD (j - start) else s.blk.bit j := by
  refine ⟨_, exec_ok hr hc, fun j => ?_⟩
  rw [Block.complete_bit, hbody, Block.writeField_bit _ x hw, Block.accept_bit]

section Effects

variable {s : State} {start width : Nat}

/-- A one-bit target is legal on every build. -/
theorem checkField_one (hw : 1 ≤ width) (h : start + width ≤ p.T) : checkField p start width 1 = none :=
  checkField_none.mpr ⟨⟨le_refl 1, p.one_le_DW⟩, hw, h⟩

/-- ZERO leaves every limb 0. -/
theorem exec_zero (hr : s.CMD_READY = true) :
    ∃ b : Block s.p, exec pseudoZero s = .next { s with blk := b } ∧ b.sint = 0 := by
  refine ⟨_, exec_ok hr rfl, Block.sint_eq_zero fun i hi => ?_⟩
  simp [pseudoZero, commandBody, hi, valWord, limbOfInt]

/-- SET.U of a one-bit value: bit 0 of the field takes bit 0 of `VAL`, the rest of the field is cleared. -/
theorem exec_setU_one (val : Nat) (hr : s.CMD_READY = true) (hw : 1 ≤ width) (h : start + width ≤ s.p.T) :
    ∃ b : Block s.p, exec (.setU start width 1 val) s = .next { s with blk := b } ∧
      ∀ j, b.bit j = if start ≤ j ∧ j < start + width then decide (j = start) && val.testBit 0 else s.blk.bit j := by
  obtain ⟨b, hb, hbit⟩ := exec_insert_bit (i := .setU start width 1 val) hr (checkField_one hw h) hw rfl
  refine ⟨b, hb, fun j => (hbit j).trans ?_⟩
  split
  next hj =>
    rw [valSlice_eq_ofNat s.p.one_le_DW, resizeU_getLsbD, BitVec.getLsbD_ofNat]
    obtain rfl | hne := eq_or_ne j start
    · have inside : 0 < width := hw
      simp [inside]
    · have above : ¬ j - start < 1 := by omega
      simp [hne, above]
  next => rfl

/-- FILLF sets the bits of the range. -/
theorem exec_fillf (hr : s.CMD_READY = true) (hw : 1 ≤ width) (h : start + width ≤ s.p.T) :
    ∃ b : Block s.p, exec (pseudoFillf start width) s = .next { s with blk := b } ∧
      ∀ j, b.bit j = if start ≤ j ∧ j < start + width then true else s.blk.bit j := by
  obtain ⟨b, hb, hbit⟩ := exec_insert_bit (i := pseudoFillf start width) hr (checkField_one hw h) hw rfl
  refine ⟨b, hb, fun j => (hbit j).trans ?_⟩
  split
  next hj =>
    rw [valSlice_eq_ofNat s.p.one_le_DW, resizeS_one_getLsbD]
    exact decide_eq_true (by omega)
  next => rfl

/-- BIT reads one bit. -/
theorem exec_bit {n : Nat} (hr : s.CMD_READY = true) (hn : n < s.p.T) :
    ∃ b : Block s.p, exec (pseudoBit n) s = .next { s with blk := b } ∧
      b.RES = some (BitVec.ofNat s.p.DW (s.blk.bit n).toNat) := by
  refine ⟨_, exec_ok hr (checkField_one (le_refl 1) hn), ?_⟩
  exact congrArg some (extract_one_zext s.blk.accept n s.p.DW)

end Effects

/-- Settles O43: the expansions are definitions, with the width of `[msb:lsb]` by arithmetic; CLRF and SETBIT are a
SET.U of a one-bit value (`exec_setU_one`), the others have their own lemma. -/
theorem pseudoInstructionEffects : Obligations.PseudoInstructionEffects := by
  unfold Obligations.PseudoInstructionEffects
  constructor
  · intro start width tw val n v msb lsb
    refine ⟨rfl, rfl, rfl, rfl, rfl, fun w hw => ?_⟩
    obtain rfl : rangeWidth msb lsb = w := by
      unfold rangeWidth
      omega
    exact ⟨rfl, rfl, rfl, rfl, rfl⟩
  · intro s hr
    refine ⟨exec_zero hr, fun start width hw h => ⟨?_, exec_fillf hr hw h⟩, fun n v hn => ⟨exec_bit hr hn, ?_⟩⟩
    · obtain ⟨b, hb, hbit⟩ := exec_setU_one 0 hr hw h
      exact ⟨b, hb, by simpa using hbit⟩
    · obtain ⟨b, hb, hbit⟩ := exec_setU_one (start := n) (width := 1) v hr (le_refl 1) hn
      refine ⟨b, hb, fun j => (hbit j).trans ?_⟩
      obtain rfl | hne := eq_or_ne j n
      · simp
      · rw [if_neg hne, if_neg (by omega)]

end Sys2Proof.Machine
end

section
/-! SUPPORT. Storage abstraction and construction commands (40_storage.md R58 to R63): the shape read into RES, one limb
read or written, and the whole storage written from one integer or from the limbs of `B`. -/

namespace Sys2Proof

/-! ### The shape at `DW` bits (00_scope.md R8) -/

/-- `N` fits `DW` bits. -/
theorem Params.toNat_ofNat_N (p : Params) : (BitVec.ofNat p.DW p.N).toNat = p.N := by
  have fits := p.N_fits
  have pos := Nat.two_pow_pos p.DW
  rw [BitVec.toNat_ofNat, Nat.mod_eq_of_lt (by omega)]

/-- `L` fits `DW` bits. -/
theorem Params.toNat_ofNat_L (p : Params) : (BitVec.ofNat p.DW p.L).toNat = p.L := by
  rw [BitVec.toNat_ofNat, Nat.mod_eq_of_lt (p.L_le_DW.trans_lt Nat.lt_two_pow_self)]

end Sys2Proof

namespace Sys2Proof.Machine

section Values

variable {p : Params}

/-! ### Values of `VAL` and of `B` as limbs (30_encoding.md R52; 10_state.md R20) -/

/-- `VAL[L-1:0]`: a limb is never wider than `VAL`. -/
theorem valLimb_eq_ofNat (val : Nat) : valLimb p val = BitVec.ofNat p.L val := by
  simp [valLimb, valWord, BitVec.setWidth_ofNat_of_le p.L_le_DW]

/-- The limbs of a `B` of the right shape are taken as they are. -/
theorem limbOfB_toList (limbs : Vector (BitVec p.L) p.N) (i : Fin p.N) :
    limbOfB p ⟨p.L, limbs.toList⟩ i = limbs[i] := by
  simp [limbOfB, StorageValue.limbNat]

theorem shape_toList (limbs : Vector (BitVec p.L) p.N) :
    StorageValue.shape ⟨p.L, limbs.toList⟩ = (p.N, p.L) := by simp [StorageValue.shape]

/-- `store(x mod 2^T)` (00_scope.md R13): limbs that hold their parts of `x` read as `x` cut to the storage. -/
theorem Block.sint_eq_mod_of_limbOfInt {b : Block p} {x : Nat} (h : ∀ i < p.N, b.limb i = limbOfInt p x i) :
    b.sint = x % 2 ^ p.T := by
  apply Nat.eq_of_testBit_eq
  intro j
  rw [b.sint_testBit, Nat.testBit_mod_two_pow]
  by_cases hj : j < p.T
  · have limb_in : j / p.L < p.N := (Nat.div_lt_iff_lt_mul p.L_pos).mpr hj
    have bit_in : j % p.L < p.L := Nat.mod_lt _ p.L_pos
    rw [Block.bit, h _ limb_in, limbOfInt_getLsbD, decide_eq_true bit_in, Bool.true_and, Nat.div_add_mod']
  · simp [hj]

/-! ### The checks that fail -/

theorem checkIndex_of_le {idx : Nat} (h : p.N ≤ idx) : checkIndex p idx = some .limbIndex := if_pos h

theorem checkShape_of_ne {B : StorageValue} (h : B.shape ≠ (p.N, p.L)) : checkShape p B = some .shape := if_pos h

end Values

/-! ### What a command of this family does -/

section Commands

variable {s : State} {i : Instr}

/-- An accepted command that fails a check does fault entry with its own byte and nothing else (60_exceptions.md R91,
R92). -/
theorem faultsWith_of_commandCheck {code : FaultCode} (hr : s.CMD_READY = true)
    (hc : commandCheck s.p i = some code) : FaultsWith i s code i.opcode.byte :=
  ⟨_, exec_check_fails hr hc, rfl, rfl, rfl, rfl, rfl, rfl, rfl, rfl⟩

/-- A command whose body writes RES with one word of `DW` bits: RES holds the word, and no limb is accessed. -/
theorem exec_writeRES {v : BitVec s.p.DW} (hr : s.CMD_READY = true) (hc : commandCheck s.p i = none)
    (hbody : commandBody s.blk.accept i = s.blk.accept.writeRES v) :
    ∃ b : Block s.p, exec i s = .next { s with blk := b } ∧ b.RES = some v ∧
      b.S = s.blk.S ∧ b.RES_S = s.blk.RES_S ∧ b.fault = none ∧ b.DONE = true ∧ b.k = s.blk.k + 1 ∧
      b.accesses = [] := by
  obtain ⟨-, hf⟩ := s.ready_iff.mp hr
  refine ⟨_, exec_ok hr hc, ?_⟩
  rw [hbody]
  exact ⟨congrArg some (BitVec.setWidth_eq v), rfl, rfl, hf, rfl, rfl, rfl⟩

/-- A command whose body writes every limb of the storage once: the limbs hold their new values, and no limb is
read. -/
theorem exec_writeAllLimbs {val : Nat → BitVec s.p.L} (hr : s.CMD_READY = true) (hc : commandCheck s.p i = none)
    (hbody : commandBody s.blk.accept i = s.blk.accept.memWrites val (List.range s.p.N)) :
    ∃ b : Block s.p, exec i s = .next { s with blk := b } ∧
      (∀ j, j < s.p.N → b.limb j = val j) ∧ (∀ j, s.p.N ≤ j → b.limb j = s.blk.limb j) ∧
      b.RES = s.blk.RES ∧ b.RES_S = s.blk.RES_S ∧ b.fault = none ∧ b.DONE = true ∧ b.k = s.blk.k + 1 ∧
      readsOf b.accesses = [] ∧ (writesOf b.accesses).Perm (List.range s.p.N) := by
  obtain ⟨-, hf⟩ := s.ready_iff.mp hr
  refine ⟨_, exec_ok hr hc, ?_⟩
  rw [hbody]
  refine ⟨fun j hj => ?_, fun j hj => ?_, by simp, by simp, by simp [hf], rfl, by simp, by simp, by simp⟩
  · simp [hj]
  · simp [Nat.not_lt.mpr hj]

end Commands

/-! ### Obligations about the storage commands -/

/-- Settles O10: every limb is written with its part of `nat(VAL)` (`exec_writeAllLimbs`), and such limbs read as
`nat(VAL) mod 2^T` (`Block.sint_eq_mod_of_limbOfInt`). -/
theorem newvResult : Obligations.NewvResult := by
  unfold Obligations.NewvResult
  refine ⟨fun s val hr => ?_, decodeByte_byte .newv⟩
  have nat_val : (valWord s.p val).toNat = val % 2 ^ s.p.DW := BitVec.toNat_ofNat val s.p.DW
  obtain ⟨b, hb, written, kept, rest⟩ := exec_writeAllLimbs (i := .newv val) hr rfl rfl
  rw [nat_val] at written
  exact ⟨b, hb, written, kept, Block.sint_eq_mod_of_limbOfInt written, rest⟩

/-- Settles O6: RES takes `N` (`exec_writeRES`), which fits `DW` bits (`Params.toNat_ofNat_N`). -/
theorem lcountResult : Obligations.LcountResult := by
  unfold Obligations.LcountResult
  refine ⟨fun s hr => ?_, decodeByte_byte .lcount⟩
  obtain ⟨b, hb, hRES, rest⟩ := exec_writeRES (i := .lcount) hr rfl rfl
  exact ⟨b, hb, hRES, s.p.toNat_ofNat_N, rest⟩

/-- Settles O7: RES takes `L` (`exec_writeRES`), which fits `DW` bits (`Params.toNat_ofNat_L`). -/
theorem lwidthResult : Obligations.LwidthResult := by
  unfold Obligations.LwidthResult
  refine ⟨fun s hr => ?_, decodeByte_byte .lwidth⟩
  obtain ⟨b, hb, hRES, rest⟩ := exec_writeRES (i := .lwidth) hr rfl rfl
  exact ⟨b, hb, hRES, s.p.toNat_ofNat_L, rest⟩

/-- Settles O8: below `N` the body is one read of the limb into RES; from `N` on the index check fails
(`checkIndex_of_le`). -/
theorem getlResult : Obligations.GetlResult := by
  unfold Obligations.GetlResult
  refine ⟨fun s idx hr => ⟨fun hidx => ?_, fun hidx => ?_⟩, decodeByte_byte .getl⟩
  · obtain ⟨-, hf⟩ := s.ready_iff.mp hr
    exact ⟨_, exec_ok (i := .getl idx) hr (checkIndex_none.mpr hidx), rfl, rfl, rfl, hf, rfl, rfl, rfl⟩
  · exact faultsWith_of_commandCheck (i := .getl idx) hr (checkIndex_of_le hidx)

/-- Settles O9: below `N` the body is one write of `VAL[L-1:0]` (`valLimb_eq_ofNat`), which leaves the other limbs
(`Block.memWrite_limb`); from `N` on the index check fails (`checkIndex_of_le`). -/
theorem setlResult : Obligations.SetlResult := by
  unfold Obligations.SetlResult
  refine ⟨fun s idx val hr => ⟨fun hidx => ?_, fun hidx => ?_⟩, decodeByte_byte .setl⟩
  · obtain ⟨-, hf⟩ := s.ready_iff.mp hr
    refine ⟨_, exec_ok (i := .setl idx val) hr (checkIndex_none.mpr hidx), ?_⟩
    rw [commandBody, valLimb_eq_ofNat]
    refine ⟨?_, fun j hj => ?_, rfl, rfl, hf, rfl, rfl, rfl⟩
    · simp
    · simp [hj]
  · exact faultsWith_of_commandCheck (i := .setl idx val) hr (checkIndex_of_le hidx)

/-- Settles O11: a `B` of the right shape passes the check and its limbs are written as they are (`limbOfB_toList`);
any other `B` fails it (`checkShape_of_ne`). -/
theorem newlResult : Obligations.NewlResult := by
  unfold Obligations.NewlResult
  refine ⟨fun s hr => ⟨fun limbs => ?_, fun B hB => ?_⟩, decodeByte_byte .newl⟩
  · obtain ⟨b, hb, written, rest⟩ :=
      exec_writeAllLimbs (i := .newl ⟨s.p.L, limbs.toList⟩) hr (checkShape_none.mpr (shape_toList limbs)) rfl
    exact ⟨b, hb, fun i => (written i i.isLt).trans (limbOfB_toList limbs i), rest⟩
  · exact faultsWith_of_commandCheck (i := .newl B) hr (checkShape_of_ne hB)

end Sys2Proof.Machine
end

section
/-! SUPPORT. Bit-range engine (41_bitrange.md R64 to R78): extraction and insertion as operations on `Sint` (R65, R69),
the block that a GET, a SET and a MASK leave, and the properties that relate them (R73 to R78). -/

namespace Sys2Proof.Machine

/-! ### Extraction as a field of `Sint` (R65) -/

section Extraction

variable {p : Params} {s w : Nat}

/-- A field depends on the bits of its range alone. -/
theorem extract_eq_of_bit_eq {b c : Block p} (hw : 1 ≤ w) (h : ∀ j, s ≤ j → j < s + w → b.bit j = c.bit j) :
    extract b s w = extract c s w := by
  apply BitVec.eq_of_getLsbD_eq
  intro j hj
  rw [extract_getLsbD b hw, extract_getLsbD c hw, h (s + j) (by omega) (by omega)]

theorem extract_eq_ofNat_sint (b : Block p) (hw : 1 ≤ w) (hT : s + w ≤ p.T) :
    extract b s w = BitVec.ofNat w (b.sint >>> s) := by
  apply BitVec.eq_of_getLsbD_eq
  intro j hj
  have inside : s + j < p.T := by omega
  rw [extract_getLsbD b hw, BitVec.getLsbD_ofNat, Nat.testBit_shiftRight, b.sint_testBit, decide_eq_true inside,
    Bool.true_and]

/-- A range inside one limb is a slice of that limb. -/
theorem extract_of_one_limb (b : Block p) (hw : 1 ≤ w) (one : s / p.L = (s + w - 1) / p.L) :
    extract b s w = BitVec.ofNat w (((b.limb (s / p.L)).toNat >>> (s % p.L)) &&& (2 ^ w - 1)) := by
  apply BitVec.eq_of_getLsbD_eq
  intro j hj
  have last_in : s + w - 1 < p.L * (s / p.L + 1) := by
    rw [one]
    exact Nat.lt_mul_div_succ _ p.L_pos
  have split_s := Nat.div_add_mod s p.L
  have in_limb : s % p.L + j < p.L := by
    rw [Nat.mul_succ] at last_in
    omega
  have place : s + j = s / p.L * p.L + (s % p.L + j) := by
    rw [Nat.mul_comm]
    omega
  rw [extract_getLsbD b hw, place, b.bit_of_limb in_limb]
  simp [BitVec.getLsbD, Nat.testBit_shiftRight, hj]

/-- What was inserted is what is extracted. -/
theorem extract_writeField (b : Block p) (hw : 1 ≤ w) (x : BitVec w) : extract (b.writeField s w x) s w = x := by
  apply BitVec.eq_of_getLsbD_eq
  intro j hj
  rw [extract_getLsbD _ hw, Block.writeField_bit b x hw]
  simp [hj]

@[simp] theorem extract_accept (b : Block p) : extract b.accept s w = extract b s w :=
  extract_congr (b := b.accept) (d := b) rfl s w

@[simp] theorem extract_complete (b : Block p) : extract b.complete s w = extract b s w :=
  extract_congr (b := b.complete) (d := b) rfl s w

end Extraction

/-! ### Insertion as a masked merge (R69) -/

section Insertion

variable {p : Params} {s w i : Nat}

/-- The limbs `f .. l` of a range, by the division of R64. -/
theorem in_limbSpan_iff (hw : 1 ≤ w) :
    (firstLimb p s ≤ i ∧ i < firstLimb p s + limbSpan p s w) ↔ s / p.L ≤ i ∧ i ≤ (s + w - 1) / p.L := by
  have ordered : s / p.L ≤ (s + w - 1) / p.L := Nat.div_le_div_right (by omega)
  unfold limbSpan lastLimb firstLimb
  omega

theorem localMask_getLsbD_of_in_range (hw : 1 ≤ w) (hf : s / p.L ≤ i) (hl : i ≤ (s + w - 1) / p.L) {j : Nat}
    (hj : j < p.L) : (localMask p s w i).getLsbD j = decide (s ≤ i * p.L + j ∧ i * p.L + j < s + w) := by
  obtain ⟨first, last⟩ := (in_limbSpan_iff (p := p) hw).mpr ⟨hf, hl⟩
  obtain ⟨n, rfl⟩ := Nat.exists_eq_add_of_le first
  obtain ⟨above, below⟩ := limb_meets (p := p) (s := s) (n := n) hw (by omega)
  rw [localMask_getLsbD above below hw]
  simp [hj]

theorem Block.writeField_limb_inside (b : Block p) (x : BitVec w) (hw : 1 ≤ w) (hf : s / p.L ≤ i)
    (hl : i ≤ (s + w - 1) / p.L) : (b.writeField s w x).limb i = insertedLimb b s w x i := by
  rw [Block.writeField_limb, if_pos ((in_limbSpan_iff hw).mpr ⟨hf, hl⟩)]

theorem Block.writeField_limb_outside (b : Block p) (x : BitVec w) (hw : 1 ≤ w)
    (h : i < s / p.L ∨ (s + w - 1) / p.L < i) : (b.writeField s w x).limb i = b.limb i := by
  have outside : ¬(s / p.L ≤ i ∧ i ≤ (s + w - 1) / p.L) := by omega
  rw [Block.writeField_limb, if_neg ((in_limbSpan_iff hw).not.mpr outside)]

/-- Every bit of the masked merge is the inserted bit inside the range and the old bit outside it. -/
theorem Block.writeField_sint (b : Block p) (x : BitVec w) (hw : 1 ≤ w) (hT : s + w ≤ p.T) :
    (b.writeField s w x).sint = (b.sint &&& ((2 ^ p.T - 1) ^^^ ((2 ^ w - 1) <<< s))) ||| (x.toNat <<< s) := by
  apply Nat.eq_of_testBit_eq
  intro j
  have mask : ((2 ^ w - 1) <<< s).testBit j = decide (s ≤ j ∧ j < s + w) := fieldmask_testBit s w j
  have shifted : (x.toNat <<< s).testBit j = (decide (s ≤ j) && x.getLsbD (j - s)) := Nat.testBit_shiftLeft _
  rw [Block.sint_testBit, Block.writeField_bit b x hw, Nat.testBit_or, Nat.testBit_and, Nat.testBit_xor, mask, shifted,
    Nat.testBit_two_pow_sub_one, b.sint_testBit]
  by_cases inside : s ≤ j ∧ j < s + w
  · have below : j < p.T := by omega
    simp [inside, below]
  · have no_bit : (decide (s ≤ j) && x.getLsbD (j - s)) = false := by
      by_cases hs : s ≤ j
      · simp [BitVec.getLsbD_of_ge x (j - s) (by omega)]
      · simp [hs]
    rw [if_neg inside, no_bit]
    by_cases below : j < p.T <;> simp [inside, below]

end Insertion

/-! ### Values of all ones, and values brought to another width (30_encoding.md R52) -/

section Values

variable {width tw tset val : Nat}

/-- The low bits of a value that ends in ones. -/
theorem testBit_of_mod_eq_ones {m j : Nat} (h : val % 2 ^ m = 2 ^ m - 1) (hj : j < m) :
    val.testBit j = true := by
  have bit := congrArg (Nat.testBit · j) h
  simpa [Nat.testBit_mod_two_pow, hj] using bit

theorem resizeS_getLsbD {n : Nat} (m : Nat) (v : BitVec n) (j : Nat) :
    (resizeS m v).getLsbD j = (decide (j < m) && if j < n then v.getLsbD j else v.msb) :=
  BitVec.getLsbD_signExtend v

/-- -1 stays -1 at every width. -/
theorem resizeS_allOnes (hw : 1 ≤ width) : resizeS tw (BitVec.allOnes width) = BitVec.allOnes tw := by
  apply BitVec.eq_of_getLsbD_eq
  intro j hj
  simp [resizeS_getLsbD, BitVec.msb_allOnes hw, hj]

/-- SET.U writes all ones when its value has ones enough and its target holds them. -/
theorem resizeU_eq_allOnes (fits : width ≤ tset) (h : val % 2 ^ width = 2 ^ width - 1) :
    resizeU width (BitVec.ofNat tset val) = BitVec.allOnes width := by
  apply BitVec.eq_of_getLsbD_eq
  intro j hj
  have in_target : j < tset := by omega
  simp [resizeU_getLsbD, BitVec.getLsbD_ofNat, testBit_of_mod_eq_ones h hj, hj, in_target]

/-- SET.S writes all ones when the bits it takes of its value are ones: above a narrower target it repeats the sign. -/
theorem resizeS_eq_allOnes (htset : 1 ≤ tset)
    (h : val % 2 ^ min width tset = 2 ^ min width tset - 1) :
    resizeS width (BitVec.ofNat tset val) = BitVec.allOnes width := by
  apply BitVec.eq_of_getLsbD_eq
  intro j hj
  rw [resizeS_getLsbD, BitVec.getLsbD_allOnes, decide_eq_true hj, Bool.true_and]
  split
  next in_target => simp [BitVec.getLsbD_ofNat, in_target, testBit_of_mod_eq_ones h (by omega : j < min width tset)]
  next above =>
    have sign : val.testBit (tset - 1) = true := testBit_of_mod_eq_ones h (by omega)
    rw [BitVec.msb_eq_getLsbD_last, BitVec.getLsbD_ofNat, sign, Bool.and_true, decide_eq_true (by omega)]

/-- A field as wide as its target is taken as it is. -/
theorem resizeU_self {n : Nat} (v : BitVec n) : resizeU n v = v := by simp [resizeU]

theorem toNat_ofInt_neg_one (m : Nat) : (BitVec.ofInt m (-1)).toNat = 2 ^ m - 1 := by
  simp [BitVec.ofInt_neg, BitVec.neg_one_eq_allOnes]

/-- Ones cut to fewer bits are ones. -/
theorem two_pow_sub_one_mod {m n : Nat} (h : m ≤ n) : (2 ^ n - 1) % 2 ^ m = 2 ^ m - 1 := by
  apply Nat.eq_of_testBit_eq
  intro j
  rw [Nat.testBit_mod_two_pow, Nat.testBit_two_pow_sub_one, Nat.testBit_two_pow_sub_one, ← Bool.decide_and]
  exact decide_eq_decide.mpr (by omega)

end Values

/-! ### The block after a GET and after a SET -/

section Blocks

variable {p : Params} {start width n : Nat}

/-- The block after a completed GET that puts `v` into RES. -/
def Block.afterGet (b : Block p) (start width : Nat) (v : BitVec n) : Block p :=
  ((b.accept.readField start width).writeRES v).complete

/-- The block after a completed SET that inserts `x`. -/
def Block.afterSet (b : Block p) (start width : Nat) (x : BitVec width) : Block p :=
  (b.accept.writeField start width x).complete

@[simp] theorem Block.afterGet_RES (b : Block p) (v : BitVec n) :
    (b.afterGet start width v).RES = some (v.setWidth p.DW) := rfl

@[simp] theorem Block.afterGet_fault (b : Block p) (v : BitVec n) : (b.afterGet start width v).fault = b.fault := by
  simp [Block.afterGet]

@[simp] theorem Block.afterSet_fault (b : Block p) (x : BitVec width) :
    (b.afterSet start width x).fault = b.fault := by simp [Block.afterSet]

theorem Block.afterSet_bit (b : Block p) (x : BitVec width) (hw : 1 ≤ width) (j : Nat) :
    (b.afterSet start width x).bit j =
      if start ≤ j ∧ j < start + width then x.getLsbD (j - start) else b.bit j :=
  b.accept.writeField_bit x hw j

theorem Block.afterSet_bit_outside (b : Block p) (x : BitVec width) (hw : 1 ≤ width) {j : Nat}
    (h : ¬(start ≤ j ∧ j < start + width)) : (b.afterSet start width x).bit j = b.bit j := by
  rw [b.afterSet_bit x hw, if_neg h]

theorem Block.afterSet_sint (b : Block p) (x : BitVec width) (hw : 1 ≤ width) (hT : start + width ≤ p.T) :
    (b.afterSet start width x).sint =
      (b.sint &&& ((2 ^ p.T - 1) ^^^ ((2 ^ width - 1) <<< start))) ||| (x.toNat <<< start) := by
  rw [Block.afterSet, Block.complete_sint, Block.writeField_sint _ x hw hT, Block.accept_sint]

theorem extract_afterSet (b : Block p) (x : BitVec width) (hw : 1 ≤ width) :
    extract (b.afterSet start width x) start width = x := by
  rw [Block.afterSet, extract_complete, extract_writeField _ hw]

/-- The whole effect of a GET (R67, R68): RES is written, the limbs of the range are read, and nothing else changes. -/
theorem Block.afterGet_effects {b : Block p} (hf : b.fault = none) (v : BitVec n) :
    (b.afterGet start width v).RES = some (v.setWidth p.DW) ∧ (b.afterGet start width v).S = b.S ∧
      (b.afterGet start width v).RES_S = b.RES_S ∧ (b.afterGet start width v).fault = none ∧
      (b.afterGet start width v).DONE = true ∧ (b.afterGet start width v).k = b.k + 1 ∧
      (readsOf (b.afterGet start width v).accesses).Perm (rangeLimbs p start width) ∧
      writesOf (b.afterGet start width v).accesses = [] := by
  have accesses : (b.afterGet start width v).accesses =
      (rangeLimbs p start width).map fun j => .read j (b.limb j) := by
    simp [Block.afterGet, Block.readField, rangeLimbs, firstLimb, lastLimb, limbSpan]
  exact ⟨rfl, by simp [Block.afterGet], by simp [Block.afterGet], by simp [hf], rfl, by simp [Block.afterGet],
    by simp [accesses], by simp [accesses]⟩

/-- The whole effect of a SET (R70, R71): the field is merged into `Sint`, the limbs of the range are read and written,
and nothing else changes. -/
theorem Block.afterSet_effects {b : Block p} (hf : b.fault = none) (x : BitVec width) (hw : 1 ≤ width)
    (hT : start + width ≤ p.T) :
    (b.afterSet start width x).sint =
        (b.sint &&& ((2 ^ p.T - 1) ^^^ ((2 ^ width - 1) <<< start))) ||| (x.toNat <<< start) ∧
      (∀ i, (i < start / p.L ∨ (start + width - 1) / p.L < i) → (b.afterSet start width x).limb i = b.limb i) ∧
      (b.afterSet start width x).RES = b.RES ∧ (b.afterSet start width x).RES_S = b.RES_S ∧
      (b.afterSet start width x).fault = none ∧ (b.afterSet start width x).DONE = true ∧
      (b.afterSet start width x).k = b.k + 1 ∧
      (readsOf (b.afterSet start width x).accesses).Perm (rangeLimbs p start width) ∧
      (writesOf (b.afterSet start width x).accesses).Perm (rangeLimbs p start width) := by
  refine ⟨b.afterSet_sint x hw hT, fun i hi => b.accept.writeField_limb_outside x hw hi, by simp [Block.afterSet],
    by simp [Block.afterSet], by simp [hf], rfl, by simp [Block.afterSet], by simp [Block.afterSet], ?_⟩
  have order : (writeOrder p start width).Perm (rangeLimbs p start width) := writeOrder_perm p start width
  simpa [Block.afterSet] using order

end Blocks

/-! ### What the commands do on a ready block -/

section Commands

variable {s : State} {i : Instr} {start width tw val : Nat}

/-- A command that completes without a fault leaves the block ready. -/
theorem ready_of_next {b : Block s.p} (hr : s.CMD_READY = true) (hb : b.fault = none) :
    State.CMD_READY { s with blk := b } = true := by
  obtain ⟨hrst, -⟩ := s.ready_iff.mp hr
  exact (State.ready_iff _).mpr ⟨hrst, hb⟩

theorem ready_afterSet (hr : s.CMD_READY = true) (x : BitVec width) :
    State.CMD_READY { s with blk := s.blk.afterSet start width x } = true := by
  obtain ⟨-, hf⟩ := s.ready_iff.mp hr
  exact ready_of_next hr (by simp [hf])

theorem exec_getU (hr : s.CMD_READY = true) (hc : checkField s.p start width tw = none) :
    exec (.getU start width tw) s =
      .next { s with blk := s.blk.afterGet start width (resizeU tw (extract s.blk start width)) } := by
  rw [exec_ok (i := .getU start width tw) hr hc, commandBody, extract_accept, Block.afterGet]

theorem exec_getS (hr : s.CMD_READY = true) (hc : checkField s.p start width tw = none) :
    exec (.getS start width tw) s =
      .next { s with blk := s.blk.afterGet start width (resizeS tw (extract s.blk start width)) } := by
  rw [exec_ok (i := .getS start width tw) hr hc, commandBody, extract_accept, Block.afterGet]

theorem exec_setU (hr : s.CMD_READY = true) (hc : checkField s.p start width tw = none) :
    exec (.setU start width tw val) s =
      .next { s with blk := s.blk.afterSet start width (resizeU width (BitVec.ofNat tw val)) } := by
  obtain ⟨⟨-, htw⟩, -⟩ := checkField_none.mp hc
  rw [exec_ok (i := .setU start width tw val) hr hc, commandBody, valSlice_eq_ofNat htw, Block.afterSet]

theorem exec_setS (hr : s.CMD_READY = true) (hc : checkField s.p start width tw = none) :
    exec (.setS start width tw val) s =
      .next { s with blk := s.blk.afterSet start width (resizeS width (BitVec.ofNat tw val)) } := by
  obtain ⟨⟨-, htw⟩, -⟩ := checkField_none.mp hc
  rw [exec_ok (i := .setS start width tw val) hr hc, commandBody, valSlice_eq_ofNat htw, Block.afterSet]

theorem exec_mask (hr : s.CMD_READY = true) (hc : checkRange s.p start width = none) :
    exec (.mask start width) s =
      .next { s with blk := (s.blk.accept.writeRES_S (limbOfInt s.p (fieldmask start width))).complete } :=
  exec_ok (i := .mask start width) hr hc

/-- Either GET puts into RES a value that the field and the operands alone fix, on every build. -/
theorem exec_get {getI : Nat → Nat → Nat → Instr} (hI : getI = .getU ∨ getI = .getS) (start width tw : Nat) :
    ∃ value : BitVec width → BitVec tw, ∀ s : State, s.CMD_READY = true → checkField s.p start width tw = none →
      exec (getI start width tw) s =
        .next { s with blk := s.blk.afterGet start width (value (extract s.blk start width)) } := by
  obtain rfl | rfl := hI
  · exact ⟨resizeU tw, fun s => exec_getU⟩
  · exact ⟨resizeS tw, fun s => exec_getS⟩

/-- Either SET inserts a field that the operands alone fix, on every build. -/
theorem exec_set {setI : Nat → Nat → Nat → Nat → Instr} (hI : setI = .setU ∨ setI = .setS) (start width tw val : Nat) :
    ∃ x : BitVec width, ∀ s : State, s.CMD_READY = true → checkField s.p start width tw = none →
      exec (setI start width tw val) s = .next { s with blk := s.blk.afterSet start width x } := by
  obtain rfl | rfl := hI
  · exact ⟨_, fun s => exec_setU⟩
  · exact ⟨_, fun s => exec_setS⟩

/-! ### The checks that fail -/

theorem checkRange_of_zeroWidth {p : Params} (h : width = 0) : checkRange p start width = some .zeroWidth := if_pos h

theorem checkRange_of_range {p : Params} (hw : 1 ≤ width) (h : p.T < start + width) :
    checkRange p start width = some .range := by
  rw [checkRange, if_neg (by omega), if_pos h]

theorem checkField_of_targetWidth {p : Params} (h : tw = 0 ∨ p.DW < tw) :
    checkField p start width tw = some .targetWidth := if_pos h

theorem checkField_of_legal {p : Params} (h1 : 1 ≤ tw) (h2 : tw ≤ p.DW) :
    checkField p start width tw = checkRange p start width := by
  rw [checkField, if_neg (by omega)]

/-- The three faults of a GET or SET, in the order of the checks. -/
theorem field_faults (hr : s.CMD_READY = true) (hi : commandCheck s.p i = checkField s.p start width tw) :
    (tw = 0 ∨ s.p.DW < tw → FaultsWith i s .targetWidth i.opcode.byte) ∧
      (1 ≤ tw → tw ≤ s.p.DW → width = 0 → FaultsWith i s .zeroWidth i.opcode.byte) ∧
      (1 ≤ tw → tw ≤ s.p.DW → 1 ≤ width → s.p.T < start + width → FaultsWith i s .range i.opcode.byte) := by
  refine ⟨fun h => ?_, fun h1 h2 h => ?_, fun h1 h2 hw h => ?_⟩
  · exact faultsWith_of_commandCheck hr (hi.trans (checkField_of_targetWidth h))
  · exact faultsWith_of_commandCheck hr (hi.trans ((checkField_of_legal h1 h2).trans (checkRange_of_zeroWidth h)))
  · exact faultsWith_of_commandCheck hr (hi.trans ((checkField_of_legal h1 h2).trans (checkRange_of_range hw h)))

end Commands

/-! ### Disjoint fields -/

/-- SETs of disjoint fields commute, limb by limb. -/
theorem Block.afterSet_comm {p : Params} (b : Block p) {sA wA sB wB : Nat} (x : BitVec wA) (y : BitVec wB)
    (hA : 1 ≤ wA) (hB : 1 ≤ wB) (disjoint : sA + wA ≤ sB ∨ sB + wB ≤ sA) (i : Nat) :
    ((b.afterSet sA wA x).afterSet sB wB y).limb i = ((b.afterSet sB wB y).afterSet sA wA x).limb i := by
  refine Block.limb_ext fun m _ => ?_
  simp only [Block.afterSet_bit _ _ hA, Block.afterSet_bit _ _ hB]
  by_cases inB : sB ≤ i * p.L + m ∧ i * p.L + m < sB + wB
  · have notA : ¬(sA ≤ i * p.L + m ∧ i * p.L + m < sA + wA) := by omega
    rw [if_pos inB, if_neg notA, if_pos inB]
  · rw [if_neg inB, if_neg inB]

/-- A SET does not change a field disjoint from its own. -/
theorem extract_afterSet_disjoint {p : Params} (b : Block p) {sA wA sC wC : Nat} (x : BitVec wA) (hA : 1 ≤ wA)
    (hC : 1 ≤ wC) (disjoint : sA + wA ≤ sC ∨ sC + wC ≤ sA) :
    extract (b.afterSet sA wA x) sC wC = extract b sC wC :=
  extract_eq_of_bit_eq hC fun _ _ _ => b.afterSet_bit_outside x hA (by omega)

/-! ### The mask as limbs (R72) -/

section Mask

variable {p : Params} {start width : Nat}

/-- The mask's limbs, as MASK puts them into RES_S (R72). -/
def maskLimbs (p : Params) (start width : Nat) : Vector (BitVec p.L) p.N :=
  Vector.ofFn fun i : Fin p.N => limbOfInt p (fieldmask start width) i

theorem maskLimbs_getLsbD {i j : Nat} (hi : i < p.N) (hj : j < p.L) :
    (maskLimbs p start width)[i].getLsbD j =
      decide (start ≤ i * p.L + j ∧ i * p.L + j < start + width) := by
  rw [maskLimbs, Vector.getElem_ofFn, limbOfInt_getLsbD, fieldmask_testBit, decide_eq_true hj, Bool.true_and]

/-- Bit `j` of the mask, found as R31 places it. -/
theorem maskLimbs_bit {j : Nat} (hj : j < p.T) :
    ((maskLimbs p start width).toList.getD (j / p.L) 0#p.L).getLsbD (j % p.L) =
      decide (start ≤ j ∧ j < start + width) := by
  have limb_in : j / p.L < p.N := (Nat.div_lt_iff_lt_mul p.L_pos).mpr hj
  have bit_in : j % p.L < p.L := Nat.mod_lt _ p.L_pos
  have place := maskLimbs_getLsbD (start := start) (width := width) limb_in bit_in
  rw [Nat.div_add_mod'] at place
  rw [List.getD_eq_getElem _ _ (by simpa using limb_in), Vector.getElem_toList, place]

/-- The mask has as many ones as the field has bits. -/
theorem maskLimbs_count (hT : start + width ≤ p.T) : ((List.range p.T).filter fun j =>
    ((maskLimbs p start width).toList.getD (j / p.L) 0#p.L).getLsbD (j % p.L)).length = width := by
  have positions : ((List.range p.T).filter fun j =>
      ((maskLimbs p start width).toList.getD (j / p.L) 0#p.L).getLsbD (j % p.L)).Perm (List.range' start width) := by
    refine (List.perm_ext_iff_of_nodup (List.nodup_range.filter _) List.nodup_range').mpr fun j => ?_
    rw [List.mem_filter, List.mem_range, List.mem_range'_1]
    constructor
    · rintro ⟨hj, hbit⟩
      rw [maskLimbs_bit hj] at hbit
      exact of_decide_eq_true hbit
    · intro hj
      have below : j < p.T := by omega
      exact ⟨below, (maskLimbs_bit below).trans (decide_eq_true hj)⟩
  rw [positions.length_eq, List.length_range']

/-- A SET of the masked field changes nothing under the complement of the mask. -/
theorem Block.afterSet_limb_and_not_mask (b : Block p) (x : BitVec width) (hw : 1 ≤ width) (i : Fin p.N) :
    (b.afterSet start width x).limb i &&& ~~~(maskLimbs p start width)[i] =
      b.limb i &&& ~~~(maskLimbs p start width)[i] := by
  apply BitVec.eq_of_getLsbD_eq
  intro j hj
  have mask : (maskLimbs p start width)[i].getLsbD j = _ := maskLimbs_getLsbD i.isLt hj
  rw [BitVec.getLsbD_and, BitVec.getLsbD_and, BitVec.getLsbD_not, mask, ← Block.bit_of_limb _ hj,
    ← Block.bit_of_limb _ hj, b.afterSet_bit x hw]
  by_cases inside : start ≤ i * p.L + j ∧ i * p.L + j < start + width
  · simp [inside]
  · rw [if_neg inside]

end Mask

/-! ### Obligations about one command (R65, R67 to R72, R78) -/

/-- Settles O12: a GET reads the limbs of the range alone (`Block.afterGet_effects`), its value is the field of `Sint`
(`extract_eq_ofNat_sint`), and the failed checks are those of every field command (`field_faults`). -/
theorem getUnsignedResult : Obligations.GetUnsignedResult := by
  unfold Obligations.GetUnsignedResult
  refine ⟨fun s start width tw hr => ⟨fun h1 h2 hw hT => ?_, field_faults (i := .getU start width tw) hr rfl⟩,
    decodeByte_byte .getU⟩
  obtain ⟨-, hf⟩ := s.ready_iff.mp hr
  have field : (extract s.blk start width).toNat = (s.blk.sint >>> start) % 2 ^ width := by
    rw [extract_eq_ofNat_sint _ hw hT, BitVec.toNat_ofNat]
  rw [← field]
  exact ⟨_, exec_getU hr (checkField_none.mpr ⟨⟨h1, h2⟩, hw, hT⟩), Block.afterGet_effects hf _⟩

/-- Settles O13: as for GET.U, with the signed reading of the same field. -/
theorem getSignedResult : Obligations.GetSignedResult := by
  unfold Obligations.GetSignedResult
  refine ⟨fun s start width tw hr => ⟨fun h1 h2 hw hT => ?_, field_faults (i := .getS start width tw) hr rfl⟩,
    decodeByte_byte .getS⟩
  obtain ⟨-, hf⟩ := s.ready_iff.mp hr
  rw [← extract_eq_ofNat_sint _ hw hT]
  exact ⟨_, exec_getS hr (checkField_none.mpr ⟨⟨h1, h2⟩, hw, hT⟩), Block.afterGet_effects hf _⟩

/-- Settles O14: the field of `Sint` is merged and the limbs outside the range stay (`Block.afterSet_effects`); the
failed checks are those of every field command (`field_faults`). -/
theorem setUnsignedResult : Obligations.SetUnsignedResult := by
  unfold Obligations.SetUnsignedResult
  refine ⟨fun s start width tw val hr => ⟨fun h1 h2 hw hT => ?_, field_faults (i := .setU start width tw val) hr rfl⟩,
    decodeByte_byte .setU⟩
  obtain ⟨-, hf⟩ := s.ready_iff.mp hr
  exact ⟨_, exec_setU hr (checkField_none.mpr ⟨⟨h1, h2⟩, hw, hT⟩), Block.afterSet_effects hf _ hw hT⟩

/-- Settles O15: as for SET.U, with the signed reading of `VAL[TW-1:0]`. -/
theorem setSignedResult : Obligations.SetSignedResult := by
  unfold Obligations.SetSignedResult
  refine ⟨fun s start width tw val hr => ⟨fun h1 h2 hw hT => ?_, field_faults (i := .setS start width tw val) hr rfl⟩,
    decodeByte_byte .setS⟩
  obtain ⟨-, hf⟩ := s.ready_iff.mp hr
  exact ⟨_, exec_setS hr (checkField_none.mpr ⟨⟨h1, h2⟩, hw, hT⟩), Block.afterSet_effects hf _ hw hT⟩

/-- Settles O16: the body writes RES_S with the limbs of the mask (`exec_mask`); the two failed checks are those of the
range. -/
theorem maskResult : Obligations.MaskResult := by
  unfold Obligations.MaskResult
  refine ⟨fun s start width hr => ⟨fun hw hT => ?_, fun h => ?_, fun hw h => ?_⟩, decodeByte_byte .mask⟩
  · obtain ⟨-, hf⟩ := s.ready_iff.mp hr
    exact ⟨_, exec_mask hr (checkRange_none.mpr ⟨hw, hT⟩), rfl, rfl, rfl, hf, rfl, rfl, rfl⟩
  · exact faultsWith_of_commandCheck (i := .mask start width) hr (checkRange_of_zeroWidth h)
  · exact faultsWith_of_commandCheck (i := .mask start width) hr (checkRange_of_range hw h)

/-- Settles O17: both fields are the field of the one `Sint` (`extract_eq_ofNat_sint`), and a range inside one limb is a
slice of it (`extract_of_one_limb`). -/
theorem extractionIsTheFieldOfTheWholeStorage : Obligations.ExtractionIsTheFieldOfTheWholeStorage := by
  unfold Obligations.ExtractionIsTheFieldOfTheWholeStorage
  refine ⟨fun p b s w hw hT => ⟨extract_eq_ofNat_sint b hw hT, extract_of_one_limb b hw⟩, ?_⟩
  intro p q b c s w hw hT same_T same_sint
  rw [extract_eq_ofNat_sint b hw hT, extract_eq_ofNat_sint c hw (same_T ▸ hT), same_sint]

/-- Settles O18: the merge on `Sint` (`Block.writeField_sint`); limb by limb with the local mask as `m`
(`localMask_getLsbD_of_in_range`); and the writes in the order of the build (`Block.writeField_accesses`). -/
theorem insertionMergesTheField : Obligations.InsertionMergesTheField := by
  unfold Obligations.InsertionMergesTheField
  intro p b s w x hw hT
  refine ⟨b.writeField_sint x hw hT, fun i hf hl => ?_, fun i => b.writeField_limb_outside x hw, ?_⟩
  · exact ⟨localMask p s w i, fun j => localMask_getLsbD_of_in_range hw hf hl, b.writeField_limb_inside x hw hf hl⟩
  · refine ⟨writeOrder p s w, writeOrder_perm p s w, rfl, fun ascending => ?_, by simp⟩
    rw [writeOrder, ascending]
    rfl

/-- Settles O24: the checks of each of the five commands pass, so its body runs and completes. -/
theorem validRangesNeverFault : Obligations.ValidRangesNeverFault := by
  unfold Obligations.ValidRangesNeverFault
  intro s start width tw val i hr h1 h2 hw hT hi
  obtain ⟨-, hf⟩ := s.ready_iff.mp hr
  have field_ok : checkField s.p start width tw = none := checkField_none.mpr ⟨⟨h1, h2⟩, hw, hT⟩
  have range_ok : checkRange s.p start width = none := checkRange_none.mpr ⟨hw, hT⟩
  have passes : commandCheck s.p i = none := by
    simp only [List.mem_cons, List.not_mem_nil, or_false] at hi
    obtain rfl | rfl | rfl | rfl | rfl := hi
    · exact field_ok
    · exact field_ok
    · exact field_ok
    · exact field_ok
    · exact range_ok
  exact ⟨_, exec_ok hr passes, by simp [hf], rfl⟩

/-! ### A field read back (R73, R75) -/

section AllOnes

variable {s : State} {start width tset val : Nat} {i : Instr}

/-- Each command that R75 names inserts ones. -/
theorem exec_set_allOnes (hr : s.CMD_READY = true) (hw : 1 ≤ width) (hT : start + width ≤ s.p.T)
    (width_DW : width ≤ s.p.DW) (h1 : 1 ≤ tset) (h2 : tset ≤ s.p.DW)
    (hi : (i = .setU start width tset val ∧ width ≤ tset ∧ val % 2 ^ width = 2 ^ width - 1) ∨
      (i = .setS start width tset val ∧ val % 2 ^ min width tset = 2 ^ min width tset - 1) ∨
      i = .setS start width width (BitVec.ofInt s.p.DW (-1)).toNat ∨ i = pseudoFillf start width) :
    exec i s = .next { s with blk := s.blk.afterSet start width (BitVec.allOnes width) } := by
  have legal : ∀ {t : Nat}, 1 ≤ t → t ≤ s.p.DW → checkField s.p start width t = none := fun h h' =>
    checkField_none.mpr ⟨⟨h, h'⟩, hw, hT⟩
  obtain ⟨rfl, fits, ones⟩ | ⟨rfl, ones⟩ | rfl | rfl := hi
  · rw [exec_setU hr (legal h1 h2), resizeU_eq_allOnes fits ones]
  · rw [exec_setS hr (legal h1 h2), resizeS_eq_allOnes h1 ones]
  · have ones : (BitVec.ofInt s.p.DW (-1)).toNat % 2 ^ min width width = 2 ^ min width width - 1 := by
      rw [toNat_ofInt_neg_one, min_self]
      exact two_pow_sub_one_mod width_DW
    rw [exec_setS hr (legal hw width_DW), resizeS_eq_allOnes hw ones]
  · have ones : 1 % 2 ^ min width 1 = 2 ^ min width 1 - 1 := by rw [min_eq_right hw]; rfl
    rw [pseudoFillf, exec_setS hr (legal (le_refl 1) s.p.one_le_DW), resizeS_eq_allOnes (le_refl 1) ones]

end AllOnes

/-- Settles O19: the GET extracts what the SET inserted (`extract_afterSet`), and a value that fits the field fits the
target and RES. -/
theorem setThenGetReturnsTheValue : Obligations.SetThenGetReturnsTheValue := by
  unfold Obligations.SetThenGetReturnsTheValue
  intro s start width tw x hr hw hT width_DW width_tw tw_DW hx
  refine ⟨_, _, exec_setU hr (checkField_none.mpr ⟨⟨hw, width_DW⟩, hw, hT⟩),
    exec_getU (ready_afterSet hr _) (checkField_none.mpr ⟨⟨by omega, tw_DW⟩, hw, hT⟩), ?_⟩
  have fits : ∀ {m : Nat}, width ≤ m → x % 2 ^ m = x := fun h =>
    Nat.mod_eq_of_lt (hx.trans_le (Nat.pow_le_pow_right (by omega) h))
  rw [Block.afterGet_RES, extract_afterSet _ _ hw]
  congr 1
  apply BitVec.eq_of_toNat_eq
  simp [resizeU, fits (le_refl width), fits width_tw, fits width_DW]

/-- Settles O21: the field holds ones after each of the SETs (`exec_set_allOnes`); both GETs extract them
(`extract_afterSet`), and ones are -1 at every width (`resizeS_allOnes`). -/
theorem allOnesReadsMinusOne : Obligations.AllOnesReadsMinusOne := by
  unfold Obligations.AllOnesReadsMinusOne
  intro s start width tw tset val i hr hw hT width_DW h1 h2 hset1 hset2 hi
  have ready' := ready_afterSet (start := start) hr (BitVec.allOnes width)
  refine ⟨_, _, _, BitVec.allOnes tw, (BitVec.allOnes width).setWidth s.p.DW,
    exec_set_allOnes hr hw hT width_DW hset1 hset2 hi,
    exec_getS ready' (checkField_none.mpr ⟨⟨h1, h2⟩, hw, hT⟩), ?_, ?_,
    exec_getU ready' (checkField_none.mpr ⟨⟨hw, width_DW⟩, hw, hT⟩), ?_, ?_⟩
  · rw [Block.afterGet_RES, extract_afterSet _ _ hw, resizeS_allOnes hw]
  · simp [BitVec.toInt_allOnes, Nat.lt_of_succ_le h1]
  · rw [Block.afterGet_RES, extract_afterSet _ _ hw, resizeU_self]
  · rw [BitVec.toNat_setWidth_of_le width_DW, BitVec.toNat_allOnes]

/-! ### Several fields, several builds, and the mask (R74, R76, R77) -/

/-- Settles O20: every SET leaves the bits outside its range (`Block.afterSet_bit_outside`), so two of disjoint fields
commute (`Block.afterSet_comm`) and a GET of a third extracts the same field (`extract_afterSet_disjoint`). -/
theorem disjointFieldsDoNotInterfere : Obligations.DisjointFieldsDoNotInterfere := by
  unfold Obligations.DisjointFieldsDoNotInterfere
  intro setA setB hsetA hsetB s sA wA tA vA hr tA1 tA2 hA hTA
  obtain ⟨x, execA⟩ := exec_set hsetA sA wA tA vA
  have checkA : checkField s.p sA wA tA = none := checkField_none.mpr ⟨⟨tA1, tA2⟩, hA, hTA⟩
  refine ⟨_, execA s hr checkA, fun j => s.blk.afterSet_bit_outside x hA, ?_⟩
  intro sB wB tB vB tB1 tB2 hB hTB disjoint
  obtain ⟨y, execB⟩ := exec_set hsetB sB wB tB vB
  have checkB : checkField s.p sB wB tB = none := checkField_none.mpr ⟨⟨tB1, tB2⟩, hB, hTB⟩
  have readyA := ready_afterSet (start := sA) hr x
  refine ⟨_, _, _, execB _ readyA checkB, execB s hr checkB, execA _ (ready_afterSet hr y) checkA,
    s.blk.afterSet_comm x y hA hB disjoint, ?_⟩
  intro getC sC wC tC hgetC tC1 tC2 hC hTC disjointA disjointB
  obtain ⟨value, execC⟩ := exec_get hgetC sC wC tC
  have checkC : checkField s.p sC wC tC = none := checkField_none.mpr ⟨⟨tC1, tC2⟩, hC, hTC⟩
  refine ⟨_, _, execC s hr checkC, execC _ (ready_afterSet readyA y) checkC, ?_⟩
  rw [Block.afterGet_RES, Block.afterGet_RES, extract_afterSet_disjoint _ y hB hC disjointB,
    extract_afterSet_disjoint _ x hA hC disjointA]

/-- Settles O22: the value of a GET is fixed by the field of `Sint` (`exec_get`, O17), and a SET merges one field into
one `Sint` by one formula (`exec_set`, `Block.afterSet_sint`). -/
theorem limbGranularityIsNotVisible : Obligations.LimbGranularityIsNotVisible := by
  unfold Obligations.LimbGranularityIsNotVisible
  intro s t start width tw val hs ht same_T same_sint h1 tw_s tw_t hw hT
  have hT' : start + width ≤ t.p.T := same_T ▸ hT
  have check_s : checkField s.p start width tw = none := checkField_none.mpr ⟨⟨h1, tw_s⟩, hw, hT⟩
  have check_t : checkField t.p start width tw = none := checkField_none.mpr ⟨⟨h1, tw_t⟩, hw, hT'⟩
  constructor
  · intro getI hI
    obtain ⟨value, exec_getI⟩ := exec_get hI start width tw
    refine ⟨_, _, _, _, exec_getI s hs check_s, exec_getI t ht check_t, rfl, rfl, ?_⟩
    rw [BitVec.toNat_setWidth_of_le tw_s, BitVec.toNat_setWidth_of_le tw_t, extract_eq_ofNat_sint _ hw hT,
      extract_eq_ofNat_sint _ hw hT', same_sint]
  · intro setI hI
    obtain ⟨x, exec_setI⟩ := exec_set hI start width tw val
    refine ⟨_, _, exec_setI s hs check_s, exec_setI t ht check_t, ?_⟩
    rw [Block.afterSet_sint _ x hw hT, Block.afterSet_sint _ x hw hT', same_T, same_sint]

/-- Settles O23: the mask's bits (`maskLimbs_getLsbD`), their number (`maskLimbs_count`), and what any SET leaves of the
storage outside it (`Block.afterSet_limb_and_not_mask`). -/
theorem maskMarksExactlyTheField : Obligations.MaskMarksExactlyTheField := by
  unfold Obligations.MaskMarksExactlyTheField
  intro s start width hr hw hT
  refine ⟨_, maskLimbs s.p start width, exec_mask hr (checkRange_none.mpr ⟨hw, hT⟩), rfl,
    fun i j => maskLimbs_getLsbD i.isLt, maskLimbs_count hT, fun setI tw val hI h1 h2 => ?_⟩
  obtain ⟨x, exec_setI⟩ := exec_set hI start width tw val
  exact ⟨_, exec_setI s hr (checkField_none.mpr ⟨⟨h1, h2⟩, hw, hT⟩), s.blk.afterSet_limb_and_not_mask x hw⟩

end Sys2Proof.Machine
end

section
/-! SUPPORT. Whole-storage bitwise commands (42_bitwise.md R79 to R84): each reads every limb and writes RES_S limb by
limb; the identity laws (R84) follow from what each command does and from NEWL (40_storage.md R63). -/

namespace Sys2Proof.Machine

/-! ### What a command of this family does (R79) -/

section Commands

variable {s : State}

/-- A command whose body reads every limb and writes RES_S limb by limb: RES_S holds the values, and the storage and
RES stay. -/
theorem exec_writeRES_S {i : Instr} {val : Nat → BitVec s.p.L} {x : Vector (BitVec s.p.L) s.p.N}
    (hr : s.CMD_READY = true) (hc : commandCheck s.p i = none)
    (hbody : commandBody s.blk.accept i = (s.blk.accept.memReads 0 s.p.N).writeRES_S val)
    (hval : ∀ j : Fin s.p.N, val j = x[j]) :
    ∃ b : Block s.p, exec i s = .next { s with blk := b } ∧ b.RES_S = some x ∧
      b.S = s.blk.S ∧ b.RES = s.blk.RES ∧ b.fault = none ∧ b.DONE = true ∧ b.k = s.blk.k + 1 := by
  obtain ⟨-, hf⟩ := s.ready_iff.mp hr
  have same_limbs : (Vector.ofFn fun j : Fin s.p.N => val j) = x := by
    ext j hj : 1
    simpa using hval ⟨j, hj⟩
  refine ⟨_, exec_ok hr hc, ?_⟩
  rw [hbody]
  exact ⟨congrArg some same_limbs, by simp, by simp, by simp [hf], rfl, by simp⟩

/-- A command that combines each limb of the storage with the limb of `B` at its index: its result for a `B` of the
right shape (`limbOfB_toList`), and SHAPE for every other `B` (`checkShape_of_ne`). -/
theorem exec_combine_limbs {instr : StorageValue → Instr} (op : BitVec s.p.L → BitVec s.p.L → BitVec s.p.L)
    (hr : s.CMD_READY = true) (hcheck : ∀ B, commandCheck s.p (instr B) = checkShape s.p B)
    (hbody : ∀ B, commandBody s.blk.accept (instr B) =
      (s.blk.accept.memReads 0 s.p.N).writeRES_S fun i => op (s.blk.limb i) (limbOfB s.p B i)) :
    (∀ limbs : Vector (BitVec s.p.L) s.p.N,
      ∃ b : Block s.p, exec (instr ⟨s.p.L, limbs.toList⟩) s = .next { s with blk := b } ∧
        b.RES_S = some (Vector.ofFn fun i : Fin s.p.N => op (s.blk.limb i) limbs[i]) ∧
        b.S = s.blk.S ∧ b.RES = s.blk.RES ∧ b.fault = none ∧ b.DONE = true ∧ b.k = s.blk.k + 1) ∧
    (∀ B : StorageValue, B.shape ≠ (s.p.N, s.p.L) → FaultsWith (instr B) s .shape (instr B).opcode.byte) := by
  refine ⟨fun limbs => ?_, fun B hB => ?_⟩
  · have passes : commandCheck s.p (instr ⟨s.p.L, limbs.toList⟩) = none :=
      (hcheck _).trans (checkShape_none.mpr (shape_toList limbs))
    exact exec_writeRES_S hr passes (hbody _) fun i => by
      simpa using congrArg (op (s.blk.limb i)) (limbOfB_toList limbs i)
  · exact faultsWith_of_commandCheck hr ((hcheck B).trans (checkShape_of_ne hB))

end Commands

/-! ### Obligations about one command (R80 to R83) -/

/-- Settles O26: AND combines limbs by `&&&` (`exec_combine_limbs`). -/
theorem andResult : Obligations.AndResult := by
  unfold Obligations.AndResult
  exact ⟨fun s hr => exec_combine_limbs (instr := .andB) (· &&& ·) hr (fun _ => rfl) fun _ => rfl,
    decodeByte_byte .andB⟩

/-- Settles O27: OR combines limbs by `|||` (`exec_combine_limbs`). -/
theorem orResult : Obligations.OrResult := by
  unfold Obligations.OrResult
  exact ⟨fun s hr => exec_combine_limbs (instr := .orB) (· ||| ·) hr (fun _ => rfl) fun _ => rfl,
    decodeByte_byte .orB⟩

/-- Settles O28: XOR combines limbs by `^^^` (`exec_combine_limbs`). -/
theorem xorResult : Obligations.XorResult := by
  unfold Obligations.XorResult
  exact ⟨fun s hr => exec_combine_limbs (instr := .xorB) (· ^^^ ·) hr (fun _ => rfl) fun _ => rfl,
    decodeByte_byte .xorB⟩

/-- Settles O29: NOT has no check, and its body writes the complement of every limb (`exec_writeRES_S`). -/
theorem notResult : Obligations.NotResult := by
  unfold Obligations.NotResult
  exact ⟨fun s hr => exec_writeRES_S (i := .notS) (val := fun j => ~~~s.blk.limb j) hr rfl rfl fun j => by simp,
    decodeByte_byte .notS⟩

/-! ### The identity laws (R84) -/

section Identities

variable {p : Params}

/-- The storage as a storage-shaped value. -/
def Block.limbs (b : Block p) : Vector (BitVec p.L) p.N := Vector.ofFn fun i : Fin p.N => b.limb i

theorem Block.limbs_getElem (b : Block p) (i : Fin p.N) : b.limbs[i] = b.limb i := by simp [Block.limbs]

/-- The complement of every limb of the storage. -/
def Block.notLimbs (b : Block p) : Vector (BitVec p.L) p.N := Vector.ofFn fun i : Fin p.N => ~~~b.limb i

theorem Block.notLimbs_getElem (b : Block p) (i : Fin p.N) : b.notLimbs[i] = ~~~b.limb i := by simp [Block.notLimbs]

/-- A storage that holds the complements of another's limbs has that storage's limbs as its own complements. -/
theorem Block.notLimbs_of_complement {b c : Block p} (h : ∀ i : Fin p.N, c.limb i = b.notLimbs[i]) :
    c.notLimbs = b.limbs := by
  refine congrArg Vector.ofFn (funext fun i => ?_)
  rw [h, Block.notLimbs_getElem, BitVec.not_not]

end Identities

/-- Settles O30: each law is the result of its command (O26 to O29) and one identity on every limb; between the two
NOTs, NEWL (O11) leaves the complements in the storage (`Block.notLimbs_of_complement`). -/
theorem bitwiseIdentities : Obligations.BitwiseIdentities := by
  unfold Obligations.BitwiseIdentities
  intro s hr
  obtain ⟨and_result, -⟩ := andResult
  obtain ⟨or_result, -⟩ := orResult
  obtain ⟨xor_result, -⟩ := xorResult
  obtain ⟨not_result, -⟩ := notResult
  obtain ⟨newl_result, -⟩ := newlResult
  refine ⟨s.blk.limbs, s.blk.limbs_getElem, ?and_ones, ?or_zeros, ?xor_self, ?not_newl_not⟩
  case and_ones =>
    obtain ⟨b, hb, hRES_S, -⟩ := (and_result s hr).1 (Vector.replicate s.p.N (BitVec.allOnes s.p.L))
    rw [Vector.toList_replicate] at hb
    exact ⟨b, hb, by simpa [Block.limbs] using hRES_S⟩
  case or_zeros =>
    obtain ⟨b, hb, hRES_S, -⟩ := (or_result s hr).1 (Vector.replicate s.p.N 0#s.p.L)
    rw [Vector.toList_replicate] at hb
    exact ⟨b, hb, by simpa [Block.limbs] using hRES_S⟩
  case xor_self =>
    obtain ⟨b, hb, hRES_S, -⟩ := (xor_result s hr).1 s.blk.limbs
    refine ⟨b, hb, hRES_S.trans (congrArg some ?_)⟩
    ext j hj : 1
    simp [Block.limbs]
  case not_newl_not =>
    obtain ⟨b, hb, b_RES_S, b_S, -, b_fault, -⟩ := not_result s hr
    have b_ready := ready_of_next hr b_fault
    obtain ⟨c, hc, c_limb, -, -, -, c_fault, -⟩ := (newl_result _ b_ready).1 s.blk.notLimbs
    obtain ⟨d, hd, d_RES_S, -⟩ := not_result _ (ready_of_next b_ready c_fault)
    exact ⟨b, c, d, s.blk.notLimbs, hb, b_RES_S, hc, hd,
      d_RES_S.trans (congrArg some (Block.notLimbs_of_complement c_limb))⟩

end Sys2Proof.Machine
end

section
/-! SUPPORT. Faults (60_exceptions.md): truncation is none (R86), which of several causes is reported (R89), what a
faulting command leaves (R91), and the faulted state (R93). -/

namespace Sys2Proof.Machine

/-! ### The smallest cause, along a chain of checks (R87, R89) -/

/-- What the checks of a command have to answer by R89: no code when no cause holds, and else the cause with the
smallest code. `commandCheck_smallestCause` ties it to the checks of the model. -/
def SmallestCause (cause : FaultCode → Prop) : Option FaultCode → Prop
  | none => ∀ code, ¬cause code
  | some code => cause code ∧ ∀ other, cause other → code.num ≤ other.num

section Causes

variable {p : Params} {cause later : FaultCode → Prop} {check : Option FaultCode}

/-- A check put before others that answer larger codes. -/
theorem SmallestCause.ite {c : Prop} [Decidable c] {code : FaultCode} (h : SmallestCause later check)
    (hcause : ∀ other, cause other ↔ (other = code ∧ c) ∨ later other)
    (larger : ∀ other, later other → code.num ≤ other.num) :
    SmallestCause cause (if c then some code else check) := by
  split
  · next hc =>
    refine ⟨(hcause code).mpr (.inl ⟨rfl, hc⟩), fun other hother => ?_⟩
    obtain ⟨rfl, -⟩ | hlater := (hcause other).mp hother
    · exact Nat.le_refl _
    · exact larger other hlater
  · next hc =>
    have same : cause = later := funext fun other => by simp [hcause, hc]
    rwa [same]

/-- A single check, with nothing after it. -/
theorem SmallestCause.single {c : Prop} [Decidable c] {code : FaultCode}
    (hcause : ∀ other, cause other ↔ other = code ∧ c) : SmallestCause cause (if c then some code else none) :=
  .ite (later := fun _ => False) (fun _ => id) (by simpa using hcause) nofun

theorem SmallestCause.eq_none_iff (h : SmallestCause cause check) : check = none ↔ ∀ code, ¬cause code := by
  cases check with
  | none => exact ⟨fun _ => h, fun _ => rfl⟩
  | some code =>
    obtain ⟨holds, -⟩ := h
    exact ⟨nofun, fun no_cause => absurd holds (no_cause code)⟩

theorem checkIndex_smallestCause {idx : Nat} (hcause : ∀ code, cause code ↔ code = .limbIndex ∧ p.N ≤ idx) :
    SmallestCause cause (checkIndex p idx) := .single hcause

theorem checkShape_smallestCause {B : StorageValue}
    (hcause : ∀ code, cause code ↔ code = .shape ∧ B.shape ≠ (p.N, p.L)) :
    SmallestCause cause (checkShape p B) := .single hcause

theorem checkRange_smallestCause {start width : Nat} (hcause : ∀ code, cause code ↔
      (code = .zeroWidth ∧ width = 0) ∨ (code = .range ∧ p.T < start + width)) :
    SmallestCause cause (checkRange p start width) := by
  refine .ite (.single fun _ => Iff.rfl) hcause ?_
  rintro _ ⟨rfl, -⟩
  decide

theorem checkField_smallestCause {start width tw : Nat} (hcause : ∀ code, cause code ↔
      (code = .targetWidth ∧ (tw = 0 ∨ p.DW < tw)) ∨
      (code = .zeroWidth ∧ width = 0) ∨ (code = .range ∧ p.T < start + width)) :
    SmallestCause cause (checkField p start width tw) := by
  refine .ite (checkRange_smallestCause fun _ => Iff.rfl) hcause ?_
  rintro _ (⟨rfl, -⟩ | ⟨rfl, -⟩)
  · decide
  · decide

/-- The checks of every command answer the smallest of its causes. -/
theorem commandCheck_smallestCause (p : Params) (i : Instr) : SmallestCause (commandCause p i) (commandCheck p i) := by
  cases i with
  | lcount | lwidth | notS | newv _ => exact fun _ => id
  | getl _ | setl _ _ => exact checkIndex_smallestCause fun code => by cases code <;> simp [commandCause]
  | getU _ _ _ | getS _ _ _ | setU _ _ _ _ | setS _ _ _ _ =>
    exact checkField_smallestCause fun code => by cases code <;> simp [commandCause]
  | mask _ _ => exact checkRange_smallestCause fun code => by cases code <;> simp [commandCause]
  | andB _ | orB _ | xorB _ | newl _ =>
    exact checkShape_smallestCause fun code => by cases code <;> simp [commandCause]

end Causes

/-! ### What a command does with the answer of its checks (R91, R92) -/

section Outcomes

variable {s : State} {i : Instr}

/-- A command that passes its checks completes with no fault. -/
theorem exec_completes (hr : s.CMD_READY = true) (hc : commandCheck s.p i = none) :
    ∃ b : Block s.p, exec i s = .next { s with blk := b } ∧ b.fault = none ∧ b.DONE = true := by
  obtain ⟨-, hf⟩ := s.ready_iff.mp hr
  exact ⟨_, exec_ok hr hc, by simp [hf], rfl⟩

/-- Every accepted command leads to a block that records what its checks answered, with its own byte. -/
theorem exec_records_check (i : Instr) (hr : s.CMD_READY = true) :
    ∃ b : Block s.p, exec i s = .next { s with blk := b } ∧
      b.fault = (commandCheck s.p i).map fun code => ⟨code, i.opcode.byte⟩ := by
  cases hc : commandCheck s.p i with
  | none =>
    obtain ⟨b, hb, no_fault, -⟩ := exec_completes hr hc
    exact ⟨b, hb, no_fault⟩
  | some code => exact ⟨_, exec_check_fails hr hc, rfl⟩

end Outcomes

/-! ### The faulted state (R93) -/

section Faulted

variable {s : State} {r : FaultRecord}

theorem not_ready_of_fault (hf : s.blk.fault = some r) : s.CMD_READY = false := by simp [State.CMD_READY, hf]

theorem step_offer_of_faulted {c : Command s.p} {rest : List (HostMove s.p)} (hf : s.blk.fault = some r)
    (h : s.host = .offer c :: rest) : step s = .fault (.faultedState r.code r.cmd) := by
  unfold step
  rw [h]
  simp [offerCommand, hf]

theorem step_no_move_of_faulted (hf : s.blk.fault = some r) (h : s.host = []) :
    step s = .fault (.faultedState r.code r.cmd) := by
  unfold step
  rw [h]
  simp [idle, hf]

end Faulted

/-! ### Obligations about faults -/

/-- Settles O33: the block records the answer of the checks (`exec_records_check`), which is the smallest cause
(`commandCheck_smallestCause`). -/
theorem smallestFaultCodeIsReported : Obligations.SmallestFaultCodeIsReported := by
  unfold Obligations.SmallestFaultCodeIsReported
  intro s i hr
  have smallest := commandCheck_smallestCause s.p i
  obtain ⟨b, hb, recorded⟩ := exec_records_check i hr
  refine ⟨b, hb, ?no_fault_iff, fun code cmd hfault => ?fault, rfl⟩
  case no_fault_iff => rw [recorded, Option.map_eq_none_iff, smallest.eq_none_iff]
  case fault =>
    obtain ⟨_, hc, same⟩ := Option.map_eq_some_iff.mp (recorded.symm.trans hfault)
    cases same
    rw [hc] at smallest
    exact ⟨rfl, smallest⟩

/-- Settles O35: the only steps of a faulted block are those of `step_of_faulted`, of which the two that assert RST
keep the storage, the release of RST keeps the block, and the host's own write changes its one limb. -/
theorem onlyResetLeavesTheFaultedState : Obligations.OnlyResetLeavesTheFaultedState := by
  unfold Obligations.OnlyResetLeavesTheFaultedState
  intro s r hf
  refine ⟨(Block.FAULT_iff _).mpr (by simp [hf]), not_ready_of_fault hf, fun i => exec_of_faulted hf,
    fun c rest => step_offer_of_faulted hf, step_no_move_of_faulted hf, fun t ht j hj => ?limbs, fun t ht => ?registers⟩
  case limbs =>
    obtain ⟨rest, -, rfl⟩ | ⟨c, rest, -, rfl⟩ | ⟨rest, -, rfl⟩ | ⟨i, v, rest, hh, rfl⟩ := step_of_faulted hf ht
    · rfl
    · rfl
    · rfl
    · have other_limb : j ≠ i.val := hj i v rest hh
      exact congrArg BitVec.toNat ((s.blk.S.read_write i j v).trans (if_neg other_limb))
  case registers =>
    obtain ⟨rest, hh, -⟩ | ⟨c, rest, hh, -⟩ | ⟨rest, -, rfl⟩ | ⟨i, v, rest, -, rfl⟩ := step_of_faulted hf ht
    · exact .inl ⟨rest, hh⟩
    · exact .inr (.inl ⟨c, rest, hh⟩)
    · exact .inr (.inr ⟨hf, rfl, rfl⟩)
    · exact .inr (.inr ⟨hf, rfl, rfl⟩)

/-- Settles O25: no check reads the value that is cut. A SET or GET with a legal target width and range completes by O24
(`validRangesNeverFault`), SETL passes the index check alone, and NEWV has no check. -/
theorem truncationNeverFaults : Obligations.TruncationNeverFaults := by
  unfold Obligations.TruncationNeverFaults
  intro s start width tw idx val i hr h1 h2 hw hT hidx hi
  have field_completes := validRangesNeverFault s start width tw val i hr h1 h2 hw hT
  simp only [List.mem_cons, List.not_mem_nil, or_false] at hi field_completes
  obtain ⟨hset, -⟩ | ⟨hget, -⟩ | ⟨rfl, -⟩ | ⟨rfl, -⟩ := hi
  · exact field_completes (by tauto)
  · exact field_completes (by tauto)
  · exact exec_completes hr (checkIndex_none.mpr hidx)
  · exact exec_completes hr rfl

/-- Settles O34: a command that passes its checks does not fault (`exec_completes`), and one that fails a check does
fault entry and nothing else (`faultsWith_of_commandCheck`). -/
theorem faultingCommandHasNoOtherEffect : Obligations.FaultingCommandHasNoOtherEffect := by
  unfold Obligations.FaultingCommandHasNoOtherEffect
  intro s i hr
  cases hc : commandCheck s.p i with
  | none =>
    obtain ⟨b, hb, no_fault, -⟩ := exec_completes hr hc
    exact ⟨b, hb, fun faulted => absurd no_fault faulted⟩
  | some code =>
    obtain ⟨b, hb, hS, hRES, hRES_S, hfault, -, -, hDONE, hacc⟩ := faultsWith_of_commandCheck hr hc
    exact ⟨b, hb, fun _ => ⟨hS, hRES, hRES_S, hacc, hDONE, not_ready_of_fault hfault⟩⟩

end Sys2Proof.Machine
end

section
/-! SUPPORT. Reset and hazards (70_reset_and_hazards.md): what RST leaves, alone and over a command in flight (R101),
and a run of a list of commands, to its end or to the first command that faults (R108, R110). -/

namespace Sys2Proof.Machine

/-! ### The invariant right after reset (R101, R102) -/

/-- Settles O45: a block in reset over a canonical storage meets the invariant (`State.Inv.of_reset`), and the storage
of `State.reset` is canonical (`State.reset_wf`). -/
theorem resetMeetsTheInvariant : Obligations.ResetMeetsTheInvariant := by
  unfold Obligations.ResetMeetsTheInvariant
  exact ⟨.of_reset State.reset_wf false [] 0, fun p S RST host n hS => .of_reset hS RST host n⟩

/-! ### A step that asserts RST (R101) -/

section Reset

variable {s : State} {c : Command s.p} {rest : List (HostMove s.p)}

theorem Block.reset_holdsResetValues {p : Params} (S : Memory p.L) : (Block.reset S : Block p).HoldsResetValues :=
  ⟨rfl, rfl, rfl, rfl, rfl⟩

/-- A command that is not accepted is not cut off: RST alone acts. -/
theorem step_offerThenReset_not_ready (hh : s.host = .offerThenReset c :: rest) (hr : s.CMD_READY = false) :
    step s = .next { s with blk := Block.reset s.blk.S, RST := true, host := rest } := by
  rw [step_offerThenReset hh, offerThenReset, hr]
  rfl

/-- An accepted command that is cut off leaves the reset values, and each limb old or as the command alone would have
left it. -/
theorem step_cuts_off {b : Block s.p} (hh : s.host = .offerThenReset c :: rest) (hr : s.CMD_READY = true)
    (hb : runCommand { s with host := rest } c = .next { s with blk := b, host := rest }) :
    ∃ d : Block s.p, step s = .next { s with blk := d, RST := true, host := rest, abandoned := s.abandoned + 1 } ∧
      d.HoldsResetValues ∧ ∀ j, d.limb j = s.blk.limb j ∨ d.limb j = b.limb j := by
  refine ⟨_, by rw [step_offerThenReset hh, offerThenReset, if_pos hr, abandonCommand_next hb],
    Block.reset_holdsResetValues _, fun j => ?_⟩
  obtain old | ⟨-, new⟩ := tornStorage_read s.blk.S (fun j => BitVec.ofNat s.p.L (b.limb j).toNat) s.abandoned s.p.N j
  · exact .inl old
  · exact .inr (new.trans (by simp))

/-- The limbs that R37 does not list as written stay, whether the command completes or faults. -/
theorem exec_limb_of_not_written {i : Instr} {b : Block s.p} (hr : s.CMD_READY = true)
    (hb : exec i s = .next { s with blk := b }) {j : Nat} (hj : j ∉ limbsWritten s.p i) : b.limb j = s.blk.limb j := by
  obtain ⟨d, hd, completed, faulted⟩ := limbsAccessedPerCommand s i hr
  cases hb.symm.trans hd
  by_cases hf : b.fault = none
  · obtain ⟨-, -, unwritten⟩ := completed hf
    exact unwritten j hj
  · obtain ⟨-, unchanged⟩ := faulted hf
    exact unchanged j

/-- Every step that asserts RST leaves a block in reset; asserted alone, over the storage as it was. -/
theorem step_asserts_reset {t : State} (h : step s = .next t)
    (hh : (∃ rest, s.host = .assertReset :: rest) ∨ ∃ c rest, s.host = .offerThenReset c :: rest) :
    ∃ (S : Memory s.p.L) (rest : List (HostMove s.p)) (n : Nat), t = ⟨s.p, Block.reset S, true, rest, n⟩ ∧
      ((∃ rest, s.host = .assertReset :: rest) → S = s.blk.S) := by
  obtain ⟨rest, hh⟩ | ⟨c, rest, hh⟩ := hh
  · cases (step_assertReset hh).symm.trans h
    exact ⟨s.blk.S, rest, s.abandoned, rfl, fun _ => rfl⟩
  · cases (step_offerThenReset hh).symm.trans h
    obtain ⟨S, n, ht⟩ := exists_offerThenReset_eq s c rest
    exact ⟨S, rest, n, ht, fun ⟨_, alone⟩ => nomatch hh.symm.trans alone⟩

end Reset

/-- Settles O36: RST asserted and released by the equations of `step`; a command offered into a reset by
`step_offerThenReset_not_ready` and `step_cuts_off`, where a limb that the command does not write
(`exec_limb_of_not_written`), or that fault entry leaves, has one and the same old and new value. -/
theorem resetValuesAndAbandonedCommand : Obligations.ResetValuesAndAbandonedCommand := by
  unfold Obligations.ResetValuesAndAbandonedCommand
  refine ⟨fun s rest hh => ?asserted, fun s c rest hh => ?offered⟩
  case asserted =>
    exact ⟨_, step_assertReset hh, step_releaseReset rfl, Block.reset_holdsResetValues _, rfl, rfl, rfl⟩
  case offered =>
    cases hr : s.CMD_READY with
    | false =>
      exact ⟨_, s.abandoned, step_offerThenReset_not_ready hh hr, Block.reset_holdsResetValues _,
        fun _ _ h => Bool.noConfusion h, fun h => Bool.noConfusion h, fun _ => rfl⟩
    | true =>
      obtain ⟨b, hb, -⟩ := runCommand_ready (s := { s with host := rest }) c hr
      obtain ⟨d, hd, values, torn⟩ := step_cuts_off hh hr hb
      refine ⟨d, s.abandoned + 1, hd, values, fun i t _ hi ht j => ?legal, fun _ ⟨e, he⟩ j => ?illegal,
        fun h => Bool.noConfusion h⟩
      case legal =>
        have hexec := (runCommand_ok (s := { s with host := rest }) hi).symm.trans hb
        cases hexec.symm.trans ht
        obtain old | new := torn j
        · exact .inl old
        · by_cases hj : j ∈ limbsWritten s.p i
          · exact .inr ⟨hj, congrArg BitVec.toNat new⟩
          · exact .inl (new.trans (exec_limb_of_not_written (s := { s with host := rest }) hr hexec hj))
      case illegal =>
        cases (runCommand_error (s := { s with host := rest }) he).symm.trans hb
        exact (torn j).elim id id

/-- Settles O46: every step that asserts RST leaves a block in reset (`step_asserts_reset`), which the release of RST
keeps; a SET cut off leaves each limb old or new (`step_cuts_off`), and its insertion changes no limb outside
`f .. l`. -/
theorem resetLeavesTheStatedValues : Obligations.ResetLeavesTheStatedValues := by
  unfold Obligations.ResetLeavesTheStatedValues
  constructor
  · intro s t h hh
    obtain ⟨S, rest, n, rfl, alone⟩ := step_asserts_reset h hh
    refine ⟨rfl, rfl, rfl, Block.reset_holdsResetValues S, fun hreset j => ?_, fun u ⟨_, hrelease⟩ hu => ?_⟩
    · rw [alone hreset]
      rfl
    · cases (step_releaseReset hrelease).symm.trans hu
      exact ⟨Block.reset_holdsResetValues S, rfl, rfl⟩
  · intro s c rest setI start width tw val hI hh hr hd h1 h2 hw hT _
    obtain ⟨x, hset⟩ := exec_set hI start width tw val
    have hexec := hset { s with host := rest } hr (checkField_none.mpr ⟨⟨h1, h2⟩, hw, hT⟩)
    obtain ⟨d, hd, -, torn⟩ := step_cuts_off hh hr ((runCommand_ok (s := { s with host := rest }) hd).trans hexec)
    refine ⟨_, d, hexec, hd, fun j _ _ => torn j, fun j outside => ?_⟩
    obtain old | new := torn j
    · exact old
    · exact new.trans (s.blk.accept.writeField_limb_outside x hw outside)

/-! ### A run of a list of commands (R108, R110) -/

section Runs

/-- The two ends of a run of `len` commands from `s`, as R110 gives them: the good end, or the stop at the first command
that faults. -/
def RunEnds (s : State) (len : Nat) : Prop :=
  (∃ t : State, Sys2Proof.core.run len s = .next t ∧ State.EndsWell t ∧ t.blk.k = s.blk.k + len) ∨
  (∃ (n : Nat) (t : State) (r : FaultRecord), n < len ∧
    Sys2Proof.core.run (n + 1) s = .next t ∧ t.blk.fault = some r ∧ t.host.length + (n + 1) = len ∧
    ∀ m, n + 1 < m → Sys2Proof.core.run m s = .fault (.faultedState r.code r.cmd))

variable {s t : State}

theorem run_succ_of_next (h : step s = .next t) (n : Nat) :
    Sys2Proof.core.run (n + 1) s = Sys2Proof.core.run n t := by
  have core_step : Sys2Proof.core.step s = .next t := h
  simp only [Host.Core.run, core_step]

theorem run_succ_of_fault {f : Fault} (h : step s = .fault f) (n : Nat) :
    Sys2Proof.core.run (n + 1) s = .fault f := by
  have core_step : Sys2Proof.core.step s = .fault f := h
  simp only [Host.Core.run, core_step]

/-- A faulted block has no step while the host only offers commands. -/
theorem step_offers_of_faulted {r : FaultRecord} {cs : List (Command s.p)} (hf : s.blk.fault = some r)
    (hh : s.host = cs.map HostMove.offer) : step s = .fault (.faultedState r.code r.cmd) := by
  cases cs with
  | nil => exact step_no_move_of_faulted hf hh
  | cons c cs => exact step_offer_of_faulted hf hh

/-- Every accepted command counts, one that faults too (10_state.md R26; log 8). -/
theorem runCommand_k {c : Command s.p} (hr : s.CMD_READY = true) (h : runCommand s c = .next t) :
    t.blk.k = s.blk.k + 1 := by
  obtain ⟨hrst, -⟩ := s.ready_iff.mp hr
  cases hd : decode c with
  | error e =>
    cases (runCommand_error hd).symm.trans h
    rfl
  | ok i =>
    obtain ⟨-, ⟨inReset, -⟩ | ⟨-, code, -, rfl⟩ | ⟨-, -, rfl⟩⟩ := exec_next ((runCommand_ok hd).symm.trans h)
    · exact absurd (hrst.symm.trans inReset) Bool.false_ne_true
    · rfl
    · simp

/-- A run that goes on after a command ends as the run from the next state does. -/
theorem RunEnds.of_next {len : Nat} (h : step s = .next t) (hk : t.blk.k = s.blk.k + 1) (ht : RunEnds t len) :
    RunEnds s (len + 1) := by
  obtain ⟨u, hrun, well, hku⟩ | ⟨n, u, r, hn, hrun, hf, left, stopped⟩ := ht
  · exact .inl ⟨u, (run_succ_of_next h len).trans hrun, well, by omega⟩
  · refine .inr ⟨n + 1, u, r, by omega, (run_succ_of_next h _).trans hrun, hf, by omega, fun m hm => ?_⟩
    obtain ⟨m, rfl⟩ : ∃ m', m = m' + 1 := ⟨m - 1, by omega⟩
    exact (run_succ_of_next h m).trans (stopped m (by omega))

/-- A run whose first command faults stops there, with the later commands still offered. -/
theorem RunEnds.of_fault {r : FaultRecord} {cs : List (Command t.p)} (h : step s = .next t)
    (hf : t.blk.fault = some r) (hh : t.host = cs.map HostMove.offer) : RunEnds s (cs.length + 1) := by
  refine .inr ⟨0, t, r, by omega, run_succ_of_next h 0, hf, by simp [hh], fun m hm => ?_⟩
  obtain ⟨m, rfl⟩ : ∃ m', m = m' + 2 := ⟨m - 2, by omega⟩
  exact (run_succ_of_next h _).trans (run_succ_of_fault (step_offers_of_faulted hf hh) m)

/-- By induction on the commands, over every block with no fault that they are offered to. -/
theorem runEnds_of_offers {p : Params} (n : Nat) (cs : List (Command p)) : ∀ b : Block p, b.fault = none →
    RunEnds ⟨p, b, false, cs.map HostMove.offer, n⟩ cs.length := by
  induction cs with
  | nil => exact fun b hf => .inl ⟨_, rfl, ⟨rfl, b.FAULT_eq_false_iff.mpr hf⟩, rfl⟩
  | cons c cs ih =>
    intro b hf
    have accepted : State.CMD_READY ⟨p, b, false, cs.map HostMove.offer, n⟩ = true := (State.ready_iff _).mpr ⟨rfl, hf⟩
    obtain ⟨d, hd, outcome⟩ := runCommand_ready c accepted
    have hstep := (step_offer (s := ⟨p, b, false, (c :: cs).map HostMove.offer, n⟩) rfl accepted).trans hd
    obtain completed | ⟨code, rfl⟩ := outcome
    · exact .of_next hstep (runCommand_k (s := ⟨p, b, false, cs.map HostMove.offer, n⟩) accepted hd) (ih d completed)
    · exact .of_fault hstep rfl rfl

end Runs

/-- Settles O42: a ready state that offers a list of commands is one of those of `runEnds_of_offers`. -/
theorem runEndsWellOrAtTheFirstFault : Obligations.RunEndsWellOrAtTheFirstFault := by
  unfold Obligations.RunEndsWellOrAtTheFirstFault
  intro s cs hr hh
  obtain ⟨hrst, hf⟩ := s.ready_iff.mp hr
  have ends := runEnds_of_offers s.abandoned cs s.blk hf
  rwa [← hrst, ← hh] at ends

end Sys2Proof.Machine
end
